-- ==== Sys2Proof/Word.lean ====
section
/-! DEFINITION. The word types of the block: bytes, 16-bit words, 12-bit addresses, nibbles, register numbers (00_scope.md R2). -/

namespace Sys2Proof

/-- A byte: the general registers, the timers, a memory location (10_state.md R20, R29; 20_memory.md R50). -/
abbrev Byte := BitVec 8

/-- A 16-bit word: `I`, `pc`, a stack entry, an instruction (10_state.md R22, R24, R27; 30_encoding.md R80). -/
abbrev Word := BitVec 16

/-- The 12-bit address immediate `nnn` (30_encoding.md R81). -/
abbrev Addr := BitVec 12

/-- A 4-bit field of an instruction (30_encoding.md R81). -/
abbrev Nibble := BitVec 4

/-- A general register number, `V0` to `VF`, or a key number, `0` to `F` (10_state.md R20, R31). -/
abbrev Reg := Fin 16

/-- Register 15, the flag register (10_state.md R21). -/
abbrev VF : Reg := 15

end Sys2Proof
end

