-- ==== Sys2Proof/Config.lean ====
section
/-! DEFINITION. The configuration parameters that 00_scope.md R3 leaves to the implementation, each with its legal values, the spec's default profile, and the free byte of the random source. -/

namespace Sys2Proof

/-- `QUIRK_SHIFT_SRC` (R3, D7): the register that 8xy6 and 8xyE shift. -/
inductive ShiftSource where
  | vx
  | vy
  deriving DecidableEq, Repr

/-- `QUIRK_LOADSTORE_I` (R3, D9): what Fx55 and Fx65 leave in `I`. -/
inductive LoadStoreIndex where
  | unchanged
  | plusXPlus1
  | plusX
  deriving DecidableEq, Repr

/-- `QUIRK_JUMP_OFFSET` (R3, D10): the register that Bnnn adds. -/
inductive JumpOffset where
  | v0
  | vx
  deriving DecidableEq, Repr

/-- `SYS_POLICY` (R3, D12). -/
inductive SysPolicy where
  | nop
  | illegal
  deriving DecidableEq, Repr

/-- `DRAW_ZERO_HEIGHT` (R3, D13). -/
inductive ZeroHeight where
  | illegal
  | nop
  deriving DecidableEq, Repr

/-- `ODD_TARGET_POLICY` (R3, D14). -/
inductive OddTarget where
  | fault
  | allow
  deriving DecidableEq, Repr

/-- `DECODE_5_9_LOW_NIBBLE` (R3, D15). -/
inductive LowNibble where
  | ignore
  | strict
  deriving DecidableEq, Repr

/-- `KEY_INDEX_POLICY` (R3, D16). -/
inductive KeyIndex where
  | mask
  | fault
  deriving DecidableEq, Repr

/-- `FONT_DIGIT_POLICY` (R3, D17). -/
inductive FontDigit where
  | mask
  | unmasked
  deriving DecidableEq, Repr

/-- `LOW_WRITE_POLICY` (R3, D18). -/
inductive LowWrite where
  | fault
  | allow
  deriving DecidableEq, Repr

/-- The configuration of one Machine, fixed for its life (10_state.md R37). Every value of this type is a legal
profile of 00_scope.md R3: `FONT_BASE` satisfies `a + 80 ≤ 0x200` because it is below 433. -/
structure Config where
  fontBase        : Fin 433
  shiftSource     : ShiftSource
  logicVfReset    : Bool
  loadStoreIndex  : LoadStoreIndex
  jumpOffset      : JumpOffset
  indexOverflowVf : Bool
  sysPolicy       : SysPolicy
  zeroHeight      : ZeroHeight
  oddTarget       : OddTarget
  lowNibble       : LowNibble
  keyIndex        : KeyIndex
  fontDigit       : FontDigit
  lowWrite        : LowWrite
  deriving DecidableEq, Repr

/-- The `default` column of 00_scope.md R3, the profile of 95_test_vectors.md. -/
def Config.default : Config where
  fontBase        := 0
  shiftSource     := .vx
  logicVfReset    := false
  loadStoreIndex  := .unchanged
  jumpOffset      := .v0
  indexOverflowVf := false
  sysPolicy       := .nop
  zeroHeight      := .illegal
  oddTarget       := .fault
  lowNibble       := .ignore
  keyIndex        := .mask
  fontDigit       := .mask
  lowWrite        := .fault

/-- The oracle `RNG` of 00_scope.md R3 and 41_alu.md R152: the byte of the `k`-th draw, under no law. A free value: it
has no body, so nothing can be proved of it, and a claim about RND holds for every draw (log 2). -/
opaque Config.draw8 : Nat → Byte

end Sys2Proof
end

