-- ==== Sys2Proof/Syntax.lean ====
section
/-! DEFINITION. The 35 operation variants of 30_encoding.md R87, one constructor per row of spec/opcode_table.json, with the operand fields of R81. -/

namespace Sys2Proof

/-- The instructions, in the order of the opcode table. -/
inductive Instr where
  /-- SYS addr, 0nnn (R111). -/
  | sys (nnn : Addr)
  /-- CLS, 00E0 (R190). -/
  | cls
  /-- RET, 00EE (R112). -/
  | ret
  /-- JP addr, 1nnn (R113). -/
  | jp (nnn : Addr)
  /-- CALL addr, 2nnn (R114). -/
  | call (nnn : Addr)
  /-- SE Vx, byte, 3xkk (R117). -/
  | seImm (x : Reg) (kk : Byte)
  /-- SNE Vx, byte, 4xkk (R118). -/
  | sneImm (x : Reg) (kk : Byte)
  /-- SE Vx, Vy, 5xyN (R119); `n` is the low nibble, ignored or required to be 0 (R86). -/
  | seReg (x y : Reg) (n : Nibble)
  /-- LD Vx, byte, 6xkk (R141). -/
  | ldImm (x : Reg) (kk : Byte)
  /-- ADD Vx, byte, 7xkk (R142). -/
  | addImm (x : Reg) (kk : Byte)
  /-- LD Vx, Vy, 8xy0 (R143). -/
  | ldReg (x y : Reg)
  /-- OR Vx, Vy, 8xy1 (R144). -/
  | orReg (x y : Reg)
  /-- AND Vx, Vy, 8xy2 (R145). -/
  | andReg (x y : Reg)
  /-- XOR Vx, Vy, 8xy3 (R146). -/
  | xorReg (x y : Reg)
  /-- ADD Vx, Vy, 8xy4 (R147). -/
  | addReg (x y : Reg)
  /-- SUB Vx, Vy, 8xy5 (R148). -/
  | sub (x y : Reg)
  /-- SHR Vx, Vy, 8xy6 (R149). -/
  | shr (x y : Reg)
  /-- SUBN Vx, Vy, 8xy7 (R150). -/
  | subn (x y : Reg)
  /-- SHL Vx, Vy, 8xyE (R151). -/
  | shl (x y : Reg)
  /-- SNE Vx, Vy, 9xyN (R120); `n` as for SE Vx, Vy. -/
  | sneReg (x y : Reg) (n : Nibble)
  /-- LD I, addr, Annn (R170). -/
  | ldI (nnn : Addr)
  /-- JP V0, addr, Bnnn (R115). -/
  | jpV0 (nnn : Addr)
  /-- RND Vx, byte, Cxkk (R152). -/
  | rnd (x : Reg) (kk : Byte)
  /-- DRW Vx, Vy, nibble, Dxyn (R192, R193). -/
  | drw (x y : Reg) (n : Nibble)
  /-- SKP Vx, Ex9E (R211). -/
  | skp (x : Reg)
  /-- SKNP Vx, ExA1 (R212). -/
  | sknp (x : Reg)
  /-- LD Vx, DT, Fx07 (R213). -/
  | ldVxDt (x : Reg)
  /-- LD Vx, K, Fx0A (R216). -/
  | ldVxK (x : Reg)
  /-- LD DT, Vx, Fx15 (R214). -/
  | ldDtVx (x : Reg)
  /-- LD ST, Vx, Fx18 (R215). -/
  | ldStVx (x : Reg)
  /-- ADD I, Vx, Fx1E (R171). -/
  | addI (x : Reg)
  /-- LD F, Vx, Fx29 (R172). -/
  | ldF (x : Reg)
  /-- LD B, Vx, Fx33 (R173). -/
  | ldB (x : Reg)
  /-- LD [I], Vx, Fx55 (R174). -/
  | ldMemVx (x : Reg)
  /-- LD Vx, [I], Fx65 (R175). -/
  | ldVxMem (x : Reg)
  deriving DecidableEq, Repr

end Sys2Proof
end

