-- ==== Sys2Proof/WellFormed.lean ====
section
/-! DEFINITION. Which terms of Instr are instructions: the two words 00E0 and 00EE are no SYS (30_encoding.md R83), and under DECODE_5_9_LOW_NIBBLE = strict the low nibble of 5xy_ and 9xy_ is 0 (R86). -/

namespace Sys2Proof

/-- The low nibble that `Decode5_9` accepts (30_encoding.md R86). -/
def lowNibbleAccepted (cfg : Config) (n : Nibble) : Bool :=
  decide (n = 0) || decide (cfg.lowNibble = .ignore)

/-- The instruction is one that the decoder of this configuration can give. -/
def Instr.wellFormed (cfg : Config) : Instr → Bool
  | .sys nnn => decide (nnn ≠ 0x0E0) && decide (nnn ≠ 0x0EE)
  | .cls => true
  | .ret => true
  | .jp _ => true
  | .call _ => true
  | .seImm _ _ => true
  | .sneImm _ _ => true
  | .seReg _ _ n => lowNibbleAccepted cfg n
  | .ldImm _ _ => true
  | .addImm _ _ => true
  | .ldReg _ _ => true
  | .orReg _ _ => true
  | .andReg _ _ => true
  | .xorReg _ _ => true
  | .addReg _ _ => true
  | .sub _ _ => true
  | .shr _ _ => true
  | .subn _ _ => true
  | .shl _ _ => true
  | .sneReg _ _ n => lowNibbleAccepted cfg n
  | .ldI _ => true
  | .jpV0 _ => true
  | .rnd _ _ => true
  | .drw _ _ _ => true
  | .skp _ => true
  | .sknp _ => true
  | .ldVxDt _ => true
  | .ldVxK _ => true
  | .ldDtVx _ => true
  | .ldStVx _ => true
  | .addI _ => true
  | .ldF _ => true
  | .ldB _ => true
  | .ldMemVx _ => true
  | .ldVxMem _ => true

end Sys2Proof
end

