-- ==== Sys2Proof/Decode.lean ====
section
/-! DEFINITION. The decoder of 30_encoding.md R81 to R88, total on all words and byte sequences, and after it the encoder, written from the same encodings. -/

namespace Sys2Proof

/-! ### Fields of the word (R81) -/

/-- `n1 = op[15:12]`, the major opcode. -/
def fieldN1 (op : Word) : Nibble := op.extractLsb' 12 4

/-- `x = op[11:8]`, the first register number. -/
def fieldX (op : Word) : Reg := (op.extractLsb' 8 4).toFin

/-- `y = op[7:4]`, the second register number. -/
def fieldY (op : Word) : Reg := (op.extractLsb' 4 4).toFin

/-- `n = op[3:0]`, the minor opcode or the sprite height. -/
def fieldN (op : Word) : Nibble := op.extractLsb' 0 4

/-- `kk = op[7:0]`, the byte immediate or the minor opcode. -/
def fieldKK (op : Word) : Byte := op.extractLsb' 0 8

/-- `nnn = op[11:0]`, the address immediate. -/
def fieldNNN (op : Word) : Addr := op.extractLsb' 0 12

/-! ### Decode (R83 to R86) -/

/-- Major opcode 8, decided by `n` (R84). -/
def decode8 (op : Word) : Option Instr :=
  match (fieldN op).toNat with
  | 0x0 => some (.ldReg (fieldX op) (fieldY op))
  | 0x1 => some (.orReg (fieldX op) (fieldY op))
  | 0x2 => some (.andReg (fieldX op) (fieldY op))
  | 0x3 => some (.xorReg (fieldX op) (fieldY op))
  | 0x4 => some (.addReg (fieldX op) (fieldY op))
  | 0x5 => some (.sub (fieldX op) (fieldY op))
  | 0x6 => some (.shr (fieldX op) (fieldY op))
  | 0x7 => some (.subn (fieldX op) (fieldY op))
  | 0xE => some (.shl (fieldX op) (fieldY op))
  | _   => none

/-- Major opcode E, decided by `kk` (R85). -/
def decodeE (op : Word) : Option Instr :=
  match (fieldKK op).toNat with
  | 0x9E => some (.skp (fieldX op))
  | 0xA1 => some (.sknp (fieldX op))
  | _    => none

/-- Major opcode F, decided by `kk` (R85). -/
def decodeF (op : Word) : Option Instr :=
  match (fieldKK op).toNat with
  | 0x07 => some (.ldVxDt (fieldX op))
  | 0x0A => some (.ldVxK (fieldX op))
  | 0x15 => some (.ldDtVx (fieldX op))
  | 0x18 => some (.ldStVx (fieldX op))
  | 0x1E => some (.addI (fieldX op))
  | 0x29 => some (.ldF (fieldX op))
  | 0x33 => some (.ldB (fieldX op))
  | 0x55 => some (.ldMemVx (fieldX op))
  | 0x65 => some (.ldVxMem (fieldX op))
  | _    => none

/-- `Decode5_9(V)` (R86): the variant, or Illegal for a low nibble that the configuration rejects. -/
def decode5_9 (cfg : Config) (op : Word) (i : Instr) : Option Instr :=
  if lowNibbleAccepted cfg (fieldN op) then some i else none

/-- `Decode(op)` (R83). `none` is Illegal. -/
def decode (cfg : Config) (op : Word) : Option Instr :=
  match (fieldN1 op).toNat with
  | 0x0 =>
    if op = 0x00E0 then some .cls
    else if op = 0x00EE then some .ret
    else some (.sys (fieldNNN op))
  | 0x1 => some (.jp (fieldNNN op))
  | 0x2 => some (.call (fieldNNN op))
  | 0x3 => some (.seImm (fieldX op) (fieldKK op))
  | 0x4 => some (.sneImm (fieldX op) (fieldKK op))
  | 0x5 => decode5_9 cfg op (.seReg (fieldX op) (fieldY op) (fieldN op))
  | 0x6 => some (.ldImm (fieldX op) (fieldKK op))
  | 0x7 => some (.addImm (fieldX op) (fieldKK op))
  | 0x8 => decode8 op
  | 0x9 => decode5_9 cfg op (.sneReg (fieldX op) (fieldY op) (fieldN op))
  | 0xA => some (.ldI (fieldNNN op))
  | 0xB => some (.jpV0 (fieldNNN op))
  | 0xC => some (.rnd (fieldX op) (fieldKK op))
  | 0xD => some (.drw (fieldX op) (fieldY op) (fieldN op))
  | 0xE => decodeE op
  | _   => decodeF op

/-- The instruction word of two bytes, the byte at the lower address high (20_memory.md R59, R60). -/
def wordOfBytes (hi lo : Byte) : Word := hi ++ lo

/-- The instruction at the head of a byte sequence and the bytes after it (R80: two bytes are the whole instruction). -/
def decodeBytes (cfg : Config) : List Byte → Option (Instr × List Byte)
  | hi :: lo :: rest => (decode cfg (wordOfBytes hi lo)).map (fun i => (i, rest))
  | [_] => none
  | [] => none

/-! ### Encode (R81, R83 to R87) -/

/-- Format `A`: `oooo nnnn nnnn nnnn`. -/
def encodeA (o : Nibble) (nnn : Addr) : Word := o ++ nnn

/-- Format `RB`: `oooo xxxx kkkk kkkk`. Format `R` is the same with a minor opcode for `kk`. -/
def encodeRB (o : Nibble) (x : Reg) (kk : Byte) : Word :=
  o ++ (BitVec.ofFin x : Nibble) ++ kk

/-- Formats `RR` and `RRN`: `oooo xxxx yyyy nnnn`. -/
def encodeRRN (o : Nibble) (x y : Reg) (n : Nibble) : Word :=
  o ++ (BitVec.ofFin x : Nibble) ++ (BitVec.ofFin y : Nibble) ++ n

/-- The word of an instruction. -/
def encode : Instr → Word
  | .sys nnn => encodeA 0x0 nnn
  | .cls => 0x00E0
  | .ret => 0x00EE
  | .jp nnn => encodeA 0x1 nnn
  | .call nnn => encodeA 0x2 nnn
  | .seImm x kk => encodeRB 0x3 x kk
  | .sneImm x kk => encodeRB 0x4 x kk
  | .seReg x y n => encodeRRN 0x5 x y n
  | .ldImm x kk => encodeRB 0x6 x kk
  | .addImm x kk => encodeRB 0x7 x kk
  | .ldReg x y => encodeRRN 0x8 x y 0x0
  | .orReg x y => encodeRRN 0x8 x y 0x1
  | .andReg x y => encodeRRN 0x8 x y 0x2
  | .xorReg x y => encodeRRN 0x8 x y 0x3
  | .addReg x y => encodeRRN 0x8 x y 0x4
  | .sub x y => encodeRRN 0x8 x y 0x5
  | .shr x y => encodeRRN 0x8 x y 0x6
  | .subn x y => encodeRRN 0x8 x y 0x7
  | .shl x y => encodeRRN 0x8 x y 0xE
  | .sneReg x y n => encodeRRN 0x9 x y n
  | .ldI nnn => encodeA 0xA nnn
  | .jpV0 nnn => encodeA 0xB nnn
  | .rnd x kk => encodeRB 0xC x kk
  | .drw x y n => encodeRRN 0xD x y n
  | .skp x => encodeRB 0xE x 0x9E
  | .sknp x => encodeRB 0xE x 0xA1
  | .ldVxDt x => encodeRB 0xF x 0x07
  | .ldVxK x => encodeRB 0xF x 0x0A
  | .ldDtVx x => encodeRB 0xF x 0x15
  | .ldStVx x => encodeRB 0xF x 0x18
  | .addI x => encodeRB 0xF x 0x1E
  | .ldF x => encodeRB 0xF x 0x29
  | .ldB x => encodeRB 0xF x 0x33
  | .ldMemVx x => encodeRB 0xF x 0x55
  | .ldVxMem x => encodeRB 0xF x 0x65

/-- The high byte of a word, stored at the lower address (20_memory.md R60). -/
def highByte (op : Word) : Byte := op.extractLsb' 8 8

/-- The low byte of a word, stored at the higher address (20_memory.md R60). -/
def lowByte (op : Word) : Byte := op.extractLsb' 0 8

/-- The bytes of an instruction as memory holds them, lowest address first. -/
def encodeBytes (i : Instr) : List Byte := [highByte (encode i), lowByte (encode i)]

/-- The low `nbits` bits of `w` as an instruction word; every instruction has 16 bits (R80). -/
def tableWord (nbits w : Nat) : Word := BitVec.ofNat 16 (w % 2 ^ nbits)

/-- The instruction that the decoder reads, under the default profile (log 19), from a word numbered as
spec/opcode_table.json numbers it. -/
def decodeTableWord (nbits w : Nat) : Option Instr :=
  (decodeBytes Config.default [highByte (tableWord nbits w), lowByte (tableWord nbits w)]).map Prod.fst

end Sys2Proof
end

