-- ==== Sys2Proof/Machine/State.lean ====
section
/-! DEFINITION. The state record of 10_state.md, the fatal errors of 60_exceptions.md R232, and the state after reset (70_reset_and_hazards.md R270). -/

namespace Sys2Proof.Machine

/-- The fatal errors of 60_exceptions.md R232, each with its payload. They stand in the fault record of the state
(10_state.md R34). TAKING one is a NEXT state (R234: the step is undone, `run <- HALTED`, the record is written), so no
meaning and no step answers `Outcome.fault` with one of them (log 3; safe: nothing stops that the spec lets go on). -/
inductive Fault where
  /-- Raised by the fetch of any RUNNING step with `pc + 1 > 0xFFF`; the payload is `pc` (20_memory.md R59). Safe: the spec's own error. -/
  | fetchOutOfBounds (a : Word)
  /-- Raised by Fx33, Fx55, Fx65 and Dxyn for a byte above 0xFFF, and by RET, JP, CALL and JP V0 for a target above 0xFFE;
  the payload is the address or target (20_memory.md R56, R57; 40_control.md R110). Safe: the spec's own error. -/
  | outOfBounds (a : Word)
  /-- Raised by decode (30_encoding.md R88), by SYS under `SYS_POLICY = illegal` and by Dxy0 under
  `DRAW_ZERO_HEIGHT = illegal`; the payload is the instruction word. Safe: the spec's own error. -/
  | illegalOpcode (op : Word)
  /-- Raised by CALL with `SP = 16` (10_state.md R28). Safe: the spec's own error. -/
  | stackOverflow
  /-- Raised by RET with `SP = 0` (10_state.md R28). Safe: the spec's own error. -/
  | stackUnderflow
  /-- Raised by RET, JP, CALL and JP V0 for an odd target under `ODD_TARGET_POLICY = fault` (40_control.md R110). Safe: the spec's own error. -/
  | misalignedTarget (t : Word)
  /-- Raised by Fx33 and Fx55 for a byte below 0x200 under `LOW_WRITE_POLICY = fault` (20_memory.md R57). Safe: the spec's own error. -/
  | protectedWrite (a : Addr)
  /-- Raised by Ex9E and ExA1 for `V[x] > 0xF` under `KEY_INDEX_POLICY = fault` (44_timers_input.md R210); the payload is
  the instruction word. Safe: the spec's own error. -/
  | badOperand (op : Word)
  deriving DecidableEq, Repr

/-- The reasons for which the model has no meaning for an instruction. -/
inductive Refusal where
  /-- Raised by an arm of `exec` that has no meaning yet, with the mnemonic of spec/opcode_table.json. No arm is left in
  this form: all 35 have their meaning. Safe. -/
  | notModelled (mnemonic : String)
  deriving DecidableEq, Repr

/-- The run state of 10_state.md R32. -/
inductive RunState where
  | running
  | awaitingKey
  | halted
  deriving DecidableEq, Repr

/-- The display buffer of 10_state.md R30: `disp[c][r]` is the pixel at column `c` (0..63) and row `r` (0..31). -/
abbrev Display := Vector (Vector Bool 32) 64

/-- The state record of 10_state.md section 8, with the model's own `cfg` (log 1) and `draws` (log 2). -/
structure State where
  /-- `V[0..15]` (R20, R21). -/
  v       : Vector Byte 16
  /-- `I` (R22, R23). -/
  i       : Word
  /-- `pc` (R24 to R26). -/
  pc      : Word
  /-- `S[0..15]` (R27). -/
  stack   : Vector Word 16
  /-- `SP`, the stack depth, 0..16 (R27). -/
  sp      : Fin 17
  /-- `DT` (R29). -/
  dt      : Byte
  /-- `ST` (R29). -/
  st      : Byte
  /-- `Disp` (R30). -/
  disp    : Display
  /-- `Key` (R31). -/
  key     : Vector Bool 16
  /-- `run` (R32). -/
  run     : RunState
  /-- `wait_reg` (R33). -/
  waitReg : Reg
  /-- `fault` (R34). -/
  fault   : Option Fault
  /-- `loaded` (R35). -/
  loaded  : Bool
  /-- `Mem`, the cells that differ from their reset contents, by rising address (20_memory.md R50; log 6). -/
  mem     : List Host.Cell
  /-- MODEL'S OWN: the configuration of the Machine, fixed for its life (00_scope.md R3; log 1). -/
  cfg     : Config
  /-- MODEL'S OWN: how many bytes RND has drawn (41_alu.md R152; log 2). -/
  draws   : Nat
  deriving DecidableEq, Repr

/-- The reset state of a Machine of configuration `cfg` (70_reset_and_hazards.md R270, R272). -/
def State.resetWith (cfg : Config) : State where
  v       := Vector.replicate 16 0
  i       := 0
  pc      := 0x200
  stack   := Vector.replicate 16 0
  sp      := 0
  dt      := 0
  st      := 0
  disp    := Vector.replicate 64 (Vector.replicate 32 false)
  key     := Vector.replicate 16 false
  run     := .running
  waitReg := 0
  fault   := none
  loaded  := false
  mem     := []
  cfg     := cfg
  draws   := 0

/-- The machine right after reset, under the default profile of 00_scope.md R3 (log 1). -/
def State.reset : State := State.resetWith Config.default

end Sys2Proof.Machine
end

