-- ==== Sys2Proof/Machine/Memory.lean ====
section
/-! DEFINITION. The memory of 20_memory.md: what each address holds after reset (R52 to R55), and reading and writing one byte of the list that State holds. -/

namespace Sys2Proof.Machine

/-- The font of 20_memory.md R54, 5 bytes a digit, top row first. -/
def fontBytes : List Byte :=
  [0xF0, 0x90, 0x90, 0x90, 0xF0] ++ [0x20, 0x60, 0x20, 0x20, 0x70] ++
  [0xF0, 0x10, 0xF0, 0x80, 0xF0] ++ [0xF0, 0x10, 0xF0, 0x10, 0xF0] ++
  [0x90, 0x90, 0xF0, 0x10, 0x10] ++ [0xF0, 0x80, 0xF0, 0x10, 0xF0] ++
  [0xF0, 0x80, 0xF0, 0x90, 0xF0] ++ [0xF0, 0x10, 0x20, 0x40, 0x40] ++
  [0xF0, 0x90, 0xF0, 0x90, 0xF0] ++ [0xF0, 0x90, 0xF0, 0x10, 0xF0] ++
  [0xF0, 0x90, 0xF0, 0x90, 0x90] ++ [0xE0, 0x90, 0xE0, 0x90, 0xE0] ++
  [0xF0, 0x80, 0x80, 0x80, 0xF0] ++ [0xE0, 0x90, 0x90, 0x90, 0xE0] ++
  [0xF0, 0x80, 0xF0, 0x80, 0xF0] ++ [0xF0, 0x80, 0xF0, 0x80, 0x80]

/-- What an address holds after reset, and so what an unlisted address reads as: the font at `FONT_BASE`, 0 elsewhere
(20_memory.md R54, R55). -/
def resetByte (cfg : Config) (a : Nat) : Byte :=
  if cfg.fontBase.val ≤ a ∧ a < cfg.fontBase.val + 80 then fontBytes.getD (a - cfg.fontBase.val) 0 else 0

/-- The listed byte at an address. -/
def Memory.lookup (m : List Host.Cell) (a : Nat) : Option Byte :=
  (m.find? (fun c => c.1 == a)).map Prod.snd

/-- `Mem[a]`. -/
def Memory.read (cfg : Config) (m : List Host.Cell) (a : Nat) : Byte :=
  (Memory.lookup m a).getD (resetByte cfg a)

/-- The list without the cell at an address. -/
def Memory.remove (a : Nat) (m : List Host.Cell) : List Host.Cell :=
  m.filter (fun c => c.1 != a)

/-- A cell put in its place by address. -/
def Memory.insertCell (c : Host.Cell) : List Host.Cell → List Host.Cell
  | [] => [c]
  | d :: rest => if c.1 < d.1 then c :: d :: rest else d :: Memory.insertCell c rest

/-- `Mem[a] <- b`, in canonical form: a byte equal to the reset contents is not listed. -/
def Memory.write (cfg : Config) (m : List Host.Cell) (a : Nat) (b : Byte) : List Host.Cell :=
  if b = resetByte cfg a then Memory.remove a m else Memory.insertCell (a, b) (Memory.remove a m)

/-- The cells have strictly rising addresses from `lo` up to 0xFFF, and none holds its reset contents. -/
def Memory.wfFrom (cfg : Config) (lo : Nat) : List Host.Cell → Bool
  | [] => true
  | (a, b) :: rest =>
    decide (lo ≤ a) && decide (a ≤ 0xFFF) && decide (b ≠ resetByte cfg a) && Memory.wfFrom cfg (a + 1) rest

/-- The canonical form of a memory (log 6). -/
def Memory.wf (cfg : Config) (m : List Host.Cell) : Bool := Memory.wfFrom cfg 0 m

/-- `Mem[a]` of a state. -/
def State.readByte (s : State) (a : Nat) : Byte := Memory.read s.cfg s.mem a

/-- `Mem[a] <- b` on a state. -/
def State.writeByte (s : State) (a : Nat) (b : Byte) : State :=
  { s with mem := Memory.write s.cfg s.mem a b }

end Sys2Proof.Machine
end

