-- ==== Sys2Proof/Machine/Ops.lean ====
section
/-! DEFINITION. The operations that the meanings share: registers, memory access with its checks, the return stack, target validation, skips, taking a fatal error and reset. An operation that can raise a fatal error answers an Except. -/

namespace Sys2Proof.Machine

/-! ### Registers (10_state.md R20, R25) -/

/-- `V[r]`. -/
def State.reg (s : State) (r : Reg) : Byte := s.v[r.val]

/-- `V[r] <- b`. -/
def State.setReg (s : State) (r : Reg) (b : Byte) : State := { s with v := s.v.set r.val b }

/-- `pc <- a` (R24). -/
def State.setPc (s : State) (a : Word) : State := { s with pc := a }

/-- `pc <- addr0 + 2`, which every step does before the instruction's own effect (R25). -/
def State.advance (s : State) : State := s.setPc (s.pc + 2)

/-- `I <- w` (R22). -/
def State.setIndex (s : State) (w : Word) : State := { s with i := w }

/-- `DT <- b` (R29). -/
def State.setDelay (s : State) (b : Byte) : State := { s with dt := b }

/-- `ST <- b` (R29). -/
def State.setSound (s : State) (b : Byte) : State := { s with st := b }

/-- `Disp <- d` (R30). -/
def State.setDisplay (s : State) (d : Display) : State := { s with disp := d }

/-- The stack and its depth (R27). -/
def State.setStack (s : State) (entries : Vector Word 16) (depth : Fin 17) : State :=
  { s with stack := entries, sp := depth }

/-- `run <- r` (R32). -/
def State.setRun (s : State) (r : RunState) : State := { s with run := r }

/-- `wait_reg <- x` (R33). -/
def State.setWaitReg (s : State) (x : Reg) : State := { s with waitReg := x }

/-- One more byte drawn (log 2). -/
def State.countDraw (s : State) : State := { s with draws := s.draws + 1 }

/-- `V[0] .. V[x]`, lowest first (42_index_memory.md R174). -/
def State.regsUpTo (s : State) (x : Reg) : List Byte := s.v.toList.take (x.val + 1)

/-- `V[k] <- b` for the bytes in turn, `k` rising (42_index_memory.md R175). -/
def State.setRegsFrom (s : State) (k : Nat) : List Byte → State
  | [] => s
  | b :: bs => (if h : k < 16 then s.setReg ⟨k, h⟩ b else s).setRegsFrom (k + 1) bs

/-! ### Memory access with its checks (20_memory.md R56 to R59) -/

/-- `MemRead(a, 1)` (R56). -/
def memRead (a : Nat) (s : State) : Except Fault Byte :=
  if a ≤ 0xFFF then .ok (s.readByte a) else .error (.outOfBounds (BitVec.ofNat 16 a))

/-- `MemWrite(a, 1, b)` (R57), its checks in the order given there. -/
def memWrite (a : Nat) (b : Byte) (s : State) : Except Fault State :=
  if a > 0xFFF then .error (.outOfBounds (BitVec.ofNat 16 a))
  else if a < 0x200 ∧ s.cfg.lowWrite = .fault then .error (.protectedWrite (BitVec.ofNat 12 a))
  else .ok (s.writeByte a b)

/-- The `n` bytes at `a, a + 1, ..`, checked in increasing address (R58). -/
def readBytes (a : Nat) : Nat → State → Except Fault (List Byte)
  | 0, _ => .ok []
  | n + 1, s => do
    let b ← memRead a s
    let bs ← readBytes (a + 1) n s
    .ok (b :: bs)

/-- The bytes written at `a, a + 1, ..`, checked in increasing address (R58). -/
def writeBytes (a : Nat) : List Byte → State → Except Fault State
  | [], s => .ok s
  | b :: bs, s => do
    let s' ← memWrite a b s
    writeBytes (a + 1) bs s'

/-- `Fetch()` (R59). -/
def fetch (s : State) : Except Fault Word :=
  if s.pc.toNat + 1 > 0xFFF then .error (.fetchOutOfBounds s.pc)
  else .ok (wordOfBytes (s.readByte s.pc.toNat) (s.readByte (s.pc.toNat + 1)))

/-! ### Return stack (10_state.md R28) -/

/-- `Push(a)`. -/
def push (a : Word) (s : State) : Except Fault State :=
  if h : s.sp.val < 16 then
    .ok (s.setStack (s.stack.set s.sp.val a) ⟨s.sp.val + 1, by omega⟩)
  else .error .stackOverflow

/-- `Pop()`: the popped entry and the state after. The entry stays in the stack, dead (40_control.md R112; log 14). -/
def pop (s : State) : Except Fault (Word × State) :=
  if h : 0 < s.sp.val then
    .ok (s.stack[s.sp.val - 1]'(by omega), s.setStack s.stack ⟨s.sp.val - 1, by omega⟩)
  else .error .stackUnderflow

/-! ### Control transfer (40_control.md R110, R116) -/

/-- `ValidateTarget(t)` (R110): the only way a jump, call or return writes `pc`. -/
def validateTarget (t : Word) (s : State) : Except Fault State :=
  if t.toNat + 1 > 0xFFF then .error (.outOfBounds t)
  else if t.getLsbD 0 = true ∧ s.cfg.oddTarget = .fault then .error (.misalignedTarget t)
  else .ok (s.setPc t)

/-- `Skip(c)` (R116), after `pc <- addr0 + 2`. -/
def skipIf (c : Bool) (s : State) : State := if c then s.setPc (s.pc + 2) else s

/-! ### Taking a fatal error, leaving HALTED, and the end of a meaning (60_exceptions.md R234, R237) -/

/-- `raise E(info)` (R234): of the state when the step began, only `run` and `fault` change. -/
def raiseFault (e : Fault) (s : State) : State := { s with run := .halted, fault := some e }

/-- `reset()` (70_reset_and_hazards.md R270), one of the two ways out of HALTED (R237; the other is `loadROM`, which calls
this). The configuration is fixed for the life of the Machine, and the counter of draws goes on (log 2). -/
def resetMachine (s : State) : State := { State.resetWith s.cfg with draws := s.draws }

/-- The end of an instruction that began in state `s`: its next state, or the fatal error taken from `s` (R234). -/
def complete (s : State) : Except Fault State → Host.Outcome State Fault Refusal
  | .ok s' => .next s'
  | .error e => .next (raiseFault e s)

end Sys2Proof.Machine
end

