-- ==== Sys2Proof/Machine/Flags.lean ====
section
/-! DEFINITION. The flag computations: what each instruction that has one writes to VF, and the write itself, always the last of the instruction (10_state.md R21). -/

namespace Sys2Proof.Machine

/-- The value `VF` takes for a flag: 1 or 0 (10_state.md R21). -/
def flagByte (c : Bool) : Byte := if c then 1 else 0

/-- `V[15] <- if c then 1 else 0`. -/
def State.setFlag (s : State) (c : Bool) : State := s.setReg VF (flagByte c)

/-- The carry out of bit 7 of 8xy4 (41_alu.md R147). -/
def carryOut (a b : Byte) : Bool := decide (a.toNat + b.toNat > 0xFF)

/-- No borrow in `a - b`: 8xy5 and, with the operands swapped, 8xy7 (41_alu.md R148, R150). -/
def noBorrow (a b : Byte) : Bool := decide (a.toNat ≥ b.toNat)

/-- The bit that 8xy6 shifts out, old bit 0 (41_alu.md R149). -/
def shiftedOutRight (a : Byte) : Bool := a.getLsbD 0

/-- The bit that 8xyE shifts out, old bit 7 (41_alu.md R151). -/
def shiftedOutLeft (a : Byte) : Bool := a.getLsbD 7

/-- The sum of Fx1E passes the 12-bit address space (42_index_memory.md R171). -/
def indexOverflow (i : Word) (b : Byte) : Bool := decide (i.toNat + b.toNat > 0xFFF)

/-- The flag write of 8xy1, 8xy2 and 8xy3: `VF <- 0` under `QUIRK_LOGIC_VF_RESET` (41_alu.md R144). -/
def State.setLogicFlag (s : State) : State := if s.cfg.logicVfReset then s.setFlag false else s

/-- The flag write of Fx1E under `QUIRK_INDEX_OVERFLOW_VF` (42_index_memory.md R171). -/
def State.setIndexFlag (s : State) (c : Bool) : State := if s.cfg.indexOverflowVf then s.setFlag c else s

end Sys2Proof.Machine
end

