-- ==== Sys2Proof/Machine/Operands.lean ====
section
/-! DEFINITION. The operand forms: the I-relative address, the shift source, the jump offset register, the key index, the font digit and the update of I after a register dump or load. -/

namespace Sys2Proof.Machine

/-- `I[11:0]`, the base of every I-relative access (10_state.md R23). -/
def indexBase (i : Word) : Nat := (i.extractLsb' 0 12).toNat

/-- `EA(k) = zext_16(I[11:0]) + k`, without wrap (20_memory.md R58). -/
def ea (i : Word) (k : Nat) : Nat := indexBase i + k

/-- The shifted operand of 8xy6 and 8xyE, by `QUIRK_SHIFT_SRC` (41_alu.md R149, R151). -/
def shiftSource (x y : Reg) (s : State) : Byte :=
  match s.cfg.shiftSource with
  | .vx => s.reg x
  | .vy => s.reg y

/-- The register that Bnnn adds, by `QUIRK_JUMP_OFFSET`; under `vx` it is `op[11:8]`, the high nibble of `nnn` (40_control.md R115). -/
def jumpOffsetReg (nnn : Addr) (s : State) : Reg :=
  match s.cfg.jumpOffset with
  | .v0 => 0
  | .vx => (nnn.extractLsb' 8 4).toFin

/-- The target of Bnnn, at most 0x10FE (40_control.md R115). -/
def jumpTarget (nnn : Addr) (s : State) : Word :=
  nnn.setWidth 16 + (s.reg (jumpOffsetReg nnn s)).setWidth 16

/-- `KeyIndex(v)` for the instruction word `op` (44_timers_input.md R210). -/
def keyIndex (op : Word) (b : Byte) (s : State) : Except Fault Reg :=
  if h : b.toNat ≤ 0xF then .ok ⟨b.toNat, by omega⟩
  else match s.cfg.keyIndex with
    | .mask => .ok (b.extractLsb' 0 4).toFin
    | .fault => .error (.badOperand op)

/-- The digit that Fx29 selects, by `FONT_DIGIT_POLICY` (42_index_memory.md R172). -/
def fontDigit (b : Byte) (s : State) : Nat :=
  match s.cfg.fontDigit with
  | .mask => (b.extractLsb' 0 4).toNat
  | .unmasked => b.toNat

/-- The value Fx29 gives `I` (42_index_memory.md R172). -/
def fontAddress (b : Byte) (s : State) : Word :=
  BitVec.ofNat 16 (s.cfg.fontBase.val + 5 * fontDigit b s)

/-- `I` after Fx55 and Fx65, by `QUIRK_LOADSTORE_I` (42_index_memory.md R174, R175). -/
def indexAfter (x : Reg) (s : State) : Word :=
  match s.cfg.loadStoreIndex with
  | .unchanged => s.i
  | .plusXPlus1 => BitVec.ofNat 16 (s.i.toNat + x.val + 1)
  | .plusX => BitVec.ofNat 16 (s.i.toNat + x.val)

/-- The least pressed key (44_timers_input.md R217). -/
def leastKey (s : State) : Option Reg := (List.finRange 16).find? (fun k => s.key[k.val])

end Sys2Proof.Machine
end

