-- ==== Sys2Proof/Machine/Alu.lean ====
section
/-! DEFINITION. Register and arithmetic instructions (41_alu.md): operands read first, then `V[x]`, then `VF` (10_state.md R21). -/

namespace Sys2Proof.Machine

/-- LD Vx, byte (R141). -/
def execLdImm (x : Reg) (kk : Byte) (s : State) : Host.Outcome State Fault Refusal :=
  complete s (.ok (s.advance.setReg x kk))

/-- ADD Vx, byte (R142): no flag. -/
def execAddImm (x : Reg) (kk : Byte) (s : State) : Host.Outcome State Fault Refusal :=
  complete s (.ok (s.advance.setReg x (s.reg x + kk)))

/-- LD Vx, Vy (R143). -/
def execLdReg (x y : Reg) (s : State) : Host.Outcome State Fault Refusal :=
  complete s (.ok (s.advance.setReg x (s.reg y)))

/-- OR Vx, Vy (R144). -/
def execOr (x y : Reg) (s : State) : Host.Outcome State Fault Refusal :=
  complete s (.ok (s.advance.setReg x (s.reg x ||| s.reg y)).setLogicFlag)

/-- AND Vx, Vy (R145). -/
def execAnd (x y : Reg) (s : State) : Host.Outcome State Fault Refusal :=
  complete s (.ok (s.advance.setReg x (s.reg x &&& s.reg y)).setLogicFlag)

/-- XOR Vx, Vy (R146). -/
def execXor (x y : Reg) (s : State) : Host.Outcome State Fault Refusal :=
  complete s (.ok (s.advance.setReg x (s.reg x ^^^ s.reg y)).setLogicFlag)

/-- ADD Vx, Vy (R147). -/
def execAddReg (x y : Reg) (s : State) : Host.Outcome State Fault Refusal :=
  let a := s.reg x
  let b := s.reg y
  complete s (.ok ((s.advance.setReg x (a + b)).setFlag (carryOut a b)))

/-- SUB Vx, Vy (R148). -/
def execSub (x y : Reg) (s : State) : Host.Outcome State Fault Refusal :=
  let a := s.reg x
  let b := s.reg y
  complete s (.ok ((s.advance.setReg x (a - b)).setFlag (noBorrow a b)))

/-- SHR Vx, Vy (R149). -/
def execShr (x y : Reg) (s : State) : Host.Outcome State Fault Refusal :=
  let a := shiftSource x y s
  complete s (.ok ((s.advance.setReg x (a >>> 1)).setFlag (shiftedOutRight a)))

/-- SUBN Vx, Vy (R150). -/
def execSubn (x y : Reg) (s : State) : Host.Outcome State Fault Refusal :=
  let a := s.reg x
  let b := s.reg y
  complete s (.ok ((s.advance.setReg x (b - a)).setFlag (noBorrow b a)))

/-- SHL Vx, Vy (R151). -/
def execShl (x y : Reg) (s : State) : Host.Outcome State Fault Refusal :=
  let a := shiftSource x y s
  complete s (.ok ((s.advance.setReg x (a <<< 1)).setFlag (shiftedOutLeft a)))

/-- RND Vx, byte (R152): the next free byte, masked; the counter of draws goes on by one (log 2). -/
def execRnd (x : Reg) (kk : Byte) (s : State) : Host.Outcome State Fault Refusal :=
  complete s (.ok (s.advance.countDraw.setReg x (Config.draw8 s.draws &&& kk)))

end Sys2Proof.Machine
end

