-- ==== Sys2Proof/Machine/Control.lean ====
section
/-! DEFINITION. Control transfer and skips (40_control.md). Each meaning starts from the state when the step began, `pc = addr0`, and does `pc <- addr0 + 2` itself. -/

namespace Sys2Proof.Machine

/-- SYS addr (R111). -/
def execSys (nnn : Addr) (s : State) : Host.Outcome State Fault Refusal :=
  complete s <|
    match s.cfg.sysPolicy with
    | .nop => .ok s.advance
    | .illegal => .error (.illegalOpcode (encode (.sys nnn)))

/-- RET (R112). -/
def execRet (s : State) : Host.Outcome State Fault Refusal :=
  complete s do
    let (t, s') ← pop s.advance
    validateTarget t s'

/-- JP addr (R113). -/
def execJp (nnn : Addr) (s : State) : Host.Outcome State Fault Refusal :=
  complete s (validateTarget (nnn.setWidth 16) s.advance)

/-- CALL addr (R114). -/
def execCall (nnn : Addr) (s : State) : Host.Outcome State Fault Refusal :=
  complete s do
    let s' ← push s.advance.pc s.advance
    validateTarget (nnn.setWidth 16) s'

/-- JP V0, addr (R115). -/
def execJpV0 (nnn : Addr) (s : State) : Host.Outcome State Fault Refusal :=
  complete s (validateTarget (jumpTarget nnn s) s.advance)

/-- SE Vx, byte (R117). -/
def execSeImm (x : Reg) (kk : Byte) (s : State) : Host.Outcome State Fault Refusal :=
  complete s (.ok (skipIf (s.reg x == kk) s.advance))

/-- SNE Vx, byte (R118). -/
def execSneImm (x : Reg) (kk : Byte) (s : State) : Host.Outcome State Fault Refusal :=
  complete s (.ok (skipIf (s.reg x != kk) s.advance))

/-- SE Vx, Vy (R119); the low nibble was settled by decode. -/
def execSeReg (x y : Reg) (s : State) : Host.Outcome State Fault Refusal :=
  complete s (.ok (skipIf (s.reg x == s.reg y) s.advance))

/-- SNE Vx, Vy (R120); the low nibble was settled by decode. -/
def execSneReg (x y : Reg) (s : State) : Host.Outcome State Fault Refusal :=
  complete s (.ok (skipIf (s.reg x != s.reg y) s.advance))

end Sys2Proof.Machine
end

