-- ==== Sys2Proof/Machine/Display.lean ====
section
/-! DEFINITION. The display buffer and its instructions (43_display.md). -/

namespace Sys2Proof.Machine

/-- `Disp[c][r]` (10_state.md R30). -/
def pixel (d : Display) (c : Fin 64) (r : Fin 32) : Bool := d[c.val][r.val]

/-- `Disp[c][r] <- b`. -/
def setPixel (d : Display) (c : Fin 64) (r : Fin 32) (b : Bool) : Display :=
  d.set c.val (d[c.val].set r.val b)

/-- The display with every pixel false (R190). -/
def clearDisplay : Display := Vector.replicate 64 (Vector.replicate 32 false)

/-- The innermost lines of the sprite-draw primitive (R191): one bit at `((cx + col) mod 64, (cy + row) mod 32)`; the Bool
of the pair is `coll`. -/
def drawBit (cx cy : Byte) (row col : Nat) (bit : Bool) (acc : Display × Bool) : Display × Bool :=
  let c := Fin.ofNat 64 (cx.toNat + col)
  let r := Fin.ofNat 32 (cy.toNat + row)
  let old := pixel acc.1 c r
  (setPixel acc.1 c r (old ^^ bit), acc.2 || (old && bit))

/-- The loop over the columns `col = 0 .. 7` of a row (R191): column `col` is bit `7 - col` of the byte. -/
def drawRow (cx cy : Byte) (row : Nat) (b : Byte) (acc : Display × Bool) : Display × Bool :=
  (List.range 8).foldl (fun acc col => drawBit cx cy row col (b.getLsbD (7 - col)) acc) acc

/-- The loop over the rows, from `row` on (R191). -/
def drawRows (cx cy : Byte) (row : Nat) : List Byte → Display × Bool → Display × Bool
  | [], acc => acc
  | b :: bs, acc => drawRows cx cy (row + 1) bs (drawRow cx cy row b acc)

/-- `drawSprite(cx, cy, b[0..h-1])`: the display after, and the collision bit (R191). -/
def drawSprite (d : Display) (cx cy : Byte) (bytes : List Byte) : Display × Bool :=
  drawRows cx cy 0 bytes (d, false)

/-- CLS (R190). -/
def execCls (s : State) : Host.Outcome State Fault Refusal :=
  complete s (.ok (s.advance.setDisplay clearDisplay))

/-- DRW with `n = 0`, by `DRAW_ZERO_HEIGHT` (R193). -/
def drawNothing (x y : Reg) (s : State) : Except Fault State :=
  match s.cfg.zeroHeight with
  | .illegal => .error (.illegalOpcode (encode (.drw x y 0)))
  | .nop => .ok (s.advance.setFlag false)

/-- DRW with `n ≥ 1` (R192). -/
def drawFromMemory (x y : Reg) (n : Nibble) (s : State) : Except Fault State := do
  let bytes ← readBytes (ea s.i 0) n.toNat s
  let drawn := drawSprite s.disp (s.reg x) (s.reg y) bytes
  .ok ((s.advance.setDisplay drawn.1).setFlag drawn.2)

/-- DRW Vx, Vy, nibble (R192, R193). -/
def execDrw (x y : Reg) (n : Nibble) (s : State) : Host.Outcome State Fault Refusal :=
  complete s (if n = 0 then drawNothing x y s else drawFromMemory x y n s)

end Sys2Proof.Machine
end

