-- ==== Sys2Proof/Machine/Index.lean ====
section
/-! DEFINITION. Index register and memory instructions (42_index_memory.md). -/

namespace Sys2Proof.Machine

/-- LD I, addr (R170). -/
def execLdI (nnn : Addr) (s : State) : Host.Outcome State Fault Refusal :=
  complete s (.ok (s.advance.setIndex (nnn.setWidth 16)))

/-- ADD I, Vx (R171). -/
def execAddI (x : Reg) (s : State) : Host.Outcome State Fault Refusal :=
  let b := s.reg x
  complete s (.ok ((s.advance.setIndex (s.i + b.setWidth 16)).setIndexFlag (indexOverflow s.i b)))

/-- LD F, Vx (R172). -/
def execLdF (x : Reg) (s : State) : Host.Outcome State Fault Refusal :=
  complete s (.ok (s.advance.setIndex (fontAddress (s.reg x) s)))

/-- The three decimal digits of a byte, hundreds first (R173). -/
def bcdDigits (b : Byte) : List Byte :=
  [BitVec.ofNat 8 (b.toNat / 100), BitVec.ofNat 8 (b.toNat / 10 % 10), BitVec.ofNat 8 (b.toNat % 10)]

/-- LD B, Vx (R173). -/
def execLdB (x : Reg) (s : State) : Host.Outcome State Fault Refusal :=
  complete s (writeBytes (ea s.i 0) (bcdDigits (s.reg x)) s.advance)

/-- LD [I], Vx (R174). -/
def execLdMemVx (x : Reg) (s : State) : Host.Outcome State Fault Refusal :=
  complete s do
    let s' ← writeBytes (ea s.i 0) (s.regsUpTo x) s.advance
    .ok (s'.setIndex (indexAfter x s))

/-- LD Vx, [I] (R175). -/
def execLdVxMem (x : Reg) (s : State) : Host.Outcome State Fault Refusal :=
  complete s do
    let bs ← readBytes (ea s.i 0) (x.val + 1) s.advance
    .ok ((s.advance.setRegsFrom 0 bs).setIndex (indexAfter x s))

end Sys2Proof.Machine
end

