-- ==== Sys2Proof/Machine/TimersKeys.lean ====
section
/-! DEFINITION. Timer and key instructions, and the step of a machine that waits for a key (44_timers_input.md). -/

namespace Sys2Proof.Machine

/-- SKP Vx (R211). -/
def execSkp (x : Reg) (s : State) : Host.Outcome State Fault Refusal :=
  complete s do
    let k ← keyIndex (encode (.skp x)) (s.reg x) s
    .ok (skipIf s.key[k.val] s.advance)

/-- SKNP Vx (R212). -/
def execSknp (x : Reg) (s : State) : Host.Outcome State Fault Refusal :=
  complete s do
    let k ← keyIndex (encode (.sknp x)) (s.reg x) s
    .ok (skipIf (!s.key[k.val]) s.advance)

/-- LD Vx, DT (R213). -/
def execLdVxDt (x : Reg) (s : State) : Host.Outcome State Fault Refusal :=
  complete s (.ok (s.advance.setReg x s.dt))

/-- LD Vx, K (R216): the machine starts to wait; `pc` stays `addr0 + 2`. -/
def execLdVxK (x : Reg) (s : State) : Host.Outcome State Fault Refusal :=
  complete s (.ok ((s.advance.setWaitReg x).setRun .awaitingKey))

/-- LD DT, Vx (R214). -/
def execLdDtVx (x : Reg) (s : State) : Host.Outcome State Fault Refusal :=
  complete s (.ok (s.advance.setDelay (s.reg x)))

/-- LD ST, Vx (R215). -/
def execLdStVx (x : Reg) (s : State) : Host.Outcome State Fault Refusal :=
  complete s (.ok (s.advance.setSound (s.reg x)))

/-- A step in AWAITING_KEY (R217): nothing is fetched; with a key pressed, the least one goes to `V[wait_reg]`. -/
def keyWaitStep (s : State) : State :=
  match leastKey s with
  | none => s
  | some k => (s.setReg s.waitReg (BitVec.ofNat 8 k.val)).setRun .running

end Sys2Proof.Machine
end

