-- ==== Sys2Proof/Machine/Step.lean ====
section
/-! DEFINITION. One step() of the block (60_exceptions.md R230, R236), and the state in which a given word is the next instruction fetched. -/

namespace Sys2Proof.Machine

/-- A RUNNING step of a loaded machine: fetch, decode, execute (R230). -/
def runningStep (s : State) : Host.Outcome State Fault Refusal :=
  match fetch s with
  | .error e => .next (raiseFault e s)
  | .ok op =>
    match decode s.cfg op with
    | none => .next (raiseFault (.illegalOpcode op) s)
    | some i => exec i s

/-- `step()` (R230). Before a program is loaded (R231) and once HALTED (R235) it changes nothing. What it returns is
`stepReply` (log 4). -/
def step (s : State) : Host.Outcome State Fault Refusal :=
  if s.loaded then
    match s.run with
    | .halted => .next s
    | .awaitingKey => .next (keyWaitStep s)
    | .running => runningStep s
  else .next s

/-- The address of the word that `withFetchWord` stores: `pc`, or the entry point where no word can be fetched at `pc`. -/
def fetchAddress (s : State) : Word := if s.pc.toNat + 1 > 0xFFF then 0x200 else s.pc

/-- `s` with a program loaded whose next instruction fetched is the word `w` (log 5). -/
def State.withFetchWord (s : State) (nbits w : Nat) : State :=
  let op := tableWord nbits w
  let a := (fetchAddress s).toNat
  { (s.writeByte a (highByte op)).writeByte (a + 1) (lowByte op) with
    pc := fetchAddress s, run := .running, fault := none, loaded := true }

end Sys2Proof.Machine
end

