-- ==== Sys2Proof/Machine/Assembly.lean ====
section
/-! DEFINITION. The assembler forms of 30_encoding.md R90, as data: a mnemonic and its operands. -/

namespace Sys2Proof.Machine

/-- The mnemonics of R90. -/
inductive Mnemonic where
  | CLS | RET | SYS | JP | CALL | SE | SNE | LD | ADD | OR | AND | XOR | SUB | SHR | SUBN | SHL | RND | DRW | SKP | SKNP
  deriving DecidableEq, Repr

/-- The operands of R90: `Vx`, `byte`, `addr`, `nibble`, and the names `I`, `DT`, `ST`, `K`, `F`, `B`, `[I]`. -/
inductive AsmOperand where
  | reg (r : Reg)
  | byte (b : Byte)
  | addr (a : Addr)
  | nibble (n : Nibble)
  | I
  | DT
  | ST
  | K
  | F
  | B
  | memI
  deriving DecidableEq, Repr

/-- A line of assembler: an instruction, or `DB b`, a raw data byte. -/
inductive AsmLine where
  | instr (m : Mnemonic) (ops : List AsmOperand)
  | db (b : Byte)
  deriving DecidableEq, Repr

/-- The assembler form of an instruction (the table of R90). The low nibble of 5xyN and 9xyN has no place in it. -/
def asmOf : Instr → AsmLine
  | .sys nnn => .instr .SYS [.addr nnn]
  | .cls => .instr .CLS []
  | .ret => .instr .RET []
  | .jp nnn => .instr .JP [.addr nnn]
  | .call nnn => .instr .CALL [.addr nnn]
  | .seImm x kk => .instr .SE [.reg x, .byte kk]
  | .sneImm x kk => .instr .SNE [.reg x, .byte kk]
  | .seReg x y _ => .instr .SE [.reg x, .reg y]
  | .ldImm x kk => .instr .LD [.reg x, .byte kk]
  | .addImm x kk => .instr .ADD [.reg x, .byte kk]
  | .ldReg x y => .instr .LD [.reg x, .reg y]
  | .orReg x y => .instr .OR [.reg x, .reg y]
  | .andReg x y => .instr .AND [.reg x, .reg y]
  | .xorReg x y => .instr .XOR [.reg x, .reg y]
  | .addReg x y => .instr .ADD [.reg x, .reg y]
  | .sub x y => .instr .SUB [.reg x, .reg y]
  | .shr x y => .instr .SHR [.reg x, .reg y]
  | .subn x y => .instr .SUBN [.reg x, .reg y]
  | .shl x y => .instr .SHL [.reg x, .reg y]
  | .sneReg x y _ => .instr .SNE [.reg x, .reg y]
  | .ldI nnn => .instr .LD [.I, .addr nnn]
  | .jpV0 nnn => .instr .JP [.reg 0, .addr nnn]
  | .rnd x kk => .instr .RND [.reg x, .byte kk]
  | .drw x y n => .instr .DRW [.reg x, .reg y, .nibble n]
  | .skp x => .instr .SKP [.reg x]
  | .sknp x => .instr .SKNP [.reg x]
  | .ldVxDt x => .instr .LD [.reg x, .DT]
  | .ldVxK x => .instr .LD [.reg x, .K]
  | .ldDtVx x => .instr .LD [.DT, .reg x]
  | .ldStVx x => .instr .LD [.ST, .reg x]
  | .addI x => .instr .ADD [.I, .reg x]
  | .ldF x => .instr .LD [.F, .reg x]
  | .ldB x => .instr .LD [.B, .reg x]
  | .ldMemVx x => .instr .LD [.memI, .reg x]
  | .ldVxMem x => .instr .LD [.reg x, .memI]

/-- The instruction of an assembler form; SHR and SHL with one operand have `y = 0`, SE and SNE of two registers a low nibble 0. -/
def assembleInstr : Mnemonic → List AsmOperand → Option Instr
  | .SYS, [.addr nnn] => some (.sys nnn)
  | .CLS, [] => some .cls
  | .RET, [] => some .ret
  | .JP, [.addr nnn] => some (.jp nnn)
  | .JP, [.reg r, .addr nnn] => if r = 0 then some (.jpV0 nnn) else none
  | .CALL, [.addr nnn] => some (.call nnn)
  | .SE, [.reg x, .byte kk] => some (.seImm x kk)
  | .SE, [.reg x, .reg y] => some (.seReg x y 0)
  | .SNE, [.reg x, .byte kk] => some (.sneImm x kk)
  | .SNE, [.reg x, .reg y] => some (.sneReg x y 0)
  | .LD, [.reg x, .byte kk] => some (.ldImm x kk)
  | .LD, [.reg x, .reg y] => some (.ldReg x y)
  | .LD, [.I, .addr nnn] => some (.ldI nnn)
  | .LD, [.reg x, .DT] => some (.ldVxDt x)
  | .LD, [.reg x, .K] => some (.ldVxK x)
  | .LD, [.DT, .reg x] => some (.ldDtVx x)
  | .LD, [.ST, .reg x] => some (.ldStVx x)
  | .LD, [.F, .reg x] => some (.ldF x)
  | .LD, [.B, .reg x] => some (.ldB x)
  | .LD, [.memI, .reg x] => some (.ldMemVx x)
  | .LD, [.reg x, .memI] => some (.ldVxMem x)
  | .ADD, [.reg x, .byte kk] => some (.addImm x kk)
  | .ADD, [.reg x, .reg y] => some (.addReg x y)
  | .ADD, [.I, .reg x] => some (.addI x)
  | .OR, [.reg x, .reg y] => some (.orReg x y)
  | .AND, [.reg x, .reg y] => some (.andReg x y)
  | .XOR, [.reg x, .reg y] => some (.xorReg x y)
  | .SUB, [.reg x, .reg y] => some (.sub x y)
  | .SUBN, [.reg x, .reg y] => some (.subn x y)
  | .SHR, [.reg x] => some (.shr x 0)
  | .SHR, [.reg x, .reg y] => some (.shr x y)
  | .SHL, [.reg x] => some (.shl x 0)
  | .SHL, [.reg x, .reg y] => some (.shl x y)
  | .RND, [.reg x, .byte kk] => some (.rnd x kk)
  | .DRW, [.reg x, .reg y, .nibble n] => some (.drw x y n)
  | .SKP, [.reg x] => some (.skp x)
  | .SKNP, [.reg x] => some (.sknp x)
  | _, _ => none

/-- The bytes of a line of assembler. -/
def assemble : AsmLine → Option (List Byte)
  | .instr m ops => (assembleInstr m ops).map encodeBytes
  | .db b => some [b]

end Sys2Proof.Machine
end

