-- ==== Sys2Proof/Machine/HostOps.lean ====
section
/-! DEFINITION. What step() returns, and the operations of the host interface (60_exceptions.md R255), each an atomic transaction between steps (70_reset_and_hazards.md R280). -/

namespace Sys2Proof.Machine

/-! ### What step() returns (R230) -/

/-- The results of `step()`. `fatal` carries the fault record, which is never `none` in a HALTED machine (10_state.md R34; log 17). -/
inductive StepReply where
  | advanced
  | awaitingKey
  | fatal (record : Option Fault)
  | notLoaded
  deriving DecidableEq, Repr

/-- The state after `step()`. Every step answers a next state (obligation EveryStepAnswersANextState), so the other two
cases do not arise. -/
def afterStep (s : State) : State :=
  match step s with
  | .next t => t
  | .fault _ => s
  | .refused _ => s

/-- What `step()` returns (R230, R231, R234, R235): it is told by the run state after the step. -/
def stepReply (s : State) : StepReply :=
  if s.loaded then
    match (afterStep s).run with
    | .running => .advanced
    | .awaitingKey => .awaitingKey
    | .halted => .fatal (afterStep s).fault
  else .notLoaded

/-! ### Loading a program (70_reset_and_hazards.md R273, R274) -/

/-- The bytes written at `a, a + 1, ..` by the host, without the checks of an instruction's write (20_memory.md R67). -/
def State.loadBytes (s : State) (a : Nat) : List Byte → State
  | [] => s
  | b :: bs => (s.writeByte a b).loadBytes (a + 1) bs

/-- The image fits in the program region: it has at most 3584 bytes (R273). -/
def imageFits (bytes : List Byte) : Bool := decide (bytes.length + 0x200 ≤ 4096)

/-- The state after `loadROM(bytes)` (R274): reset, always; then the image, unless it is too large. -/
def loadROM (bytes : List Byte) (s : State) : State :=
  if imageFits bytes then { (resetMachine s).loadBytes 0x200 bytes with loaded := true } else resetMachine s

/-! ### Timers, keys, outputs (60_exceptions.md R250 to R254; 43_display.md R195) -/

/-- One timer after a tick: down by one, saturating at 0 (R250). -/
def tickedTimer (b : Byte) : Byte := if b.toNat > 0 then b - 1 else b

/-- `tickTimers()` (R250). -/
def tickTimers (s : State) : State := (s.setDelay (tickedTimer s.dt)).setSound (tickedTimer s.st)

/-- The state after `setKey(index, pressed)` (R253): an index above 0xF changes nothing. -/
def setKey (index : Nat) (pressed : Bool) (s : State) : State :=
  if h : index ≤ 0xF then { s with key := s.key.set index pressed (by omega) } else s

/-- `isSoundActive()` (R251). -/
def isSoundActive (s : State) : Bool := decide (s.st.toNat > 0)

/-- `getDisplay()` (43_display.md R195). -/
def getDisplay (s : State) : Display := s.disp

/-! ### The table of R255 -/

/-- A host operation with its inputs. -/
inductive HostOp where
  | loadROM (bytes : List Byte)
  | reset
  | step
  | tickTimers
  | setKey (index : Nat) (pressed : Bool)
  | getDisplay
  | isSoundActive
  | observe
  deriving DecidableEq, Repr

/-- What a host operation returns. -/
inductive HostReply where
  | nothing
  | ok
  | loadError
  | invalidKeyIndex
  | stepped (r : StepReply)
  | display (d : Display)
  | sound (active : Bool)
  | observed (s : State)
  deriving DecidableEq, Repr

/-- The state after a host operation. -/
def hostNext : HostOp → State → State
  | .loadROM bytes, s => loadROM bytes s
  | .reset, s => resetMachine s
  | .step, s => afterStep s
  | .tickTimers, s => tickTimers s
  | .setKey index pressed, s => setKey index pressed s
  | .getDisplay, s => s
  | .isSoundActive, s => s
  | .observe, s => s

/-- What a host operation returns. -/
def hostReply : HostOp → State → HostReply
  | .loadROM bytes, _ => if imageFits bytes then .ok else .loadError
  | .reset, _ => .nothing
  | .step, s => .stepped (stepReply s)
  | .tickTimers, _ => .nothing
  | .setKey index _, _ => if index ≤ 0xF then .ok else .invalidKeyIndex
  | .getDisplay, s => .display (getDisplay s)
  | .isSoundActive, s => .sound (isSoundActive s)
  | .observe, s => .observed s

/-- A serial run of host operations, the first of the list first (70_reset_and_hazards.md R280). -/
def hostRun : List HostOp → State → State
  | [], s => s
  | op :: ops, s => hostRun ops (hostNext op s)

end Sys2Proof.Machine
end

