-- ==== Sys2Proof/Safety.lean ====
section
/-! DEFINITION. The terms that claims use: the invariant of the machine, what a step leaves unchanged, the state of a fatal error, the words of the formats, and which sprite bit falls on a pixel. -/

namespace Sys2Proof.Safety

open Sys2Proof.Machine

/-- The invariant of the block, kept by every step and every host operation. -/
structure Inv (s : State) : Prop where
  /-- The memory list is in canonical form: sorted, inside 0x000..0xFFF, no cell at its reset contents (20_memory.md R50; log 6). -/
  memory : Memory.wf s.cfg s.mem = true
  /-- The fault record is `none` exactly when `run ≠ HALTED` (10_state.md R34). -/
  record : s.fault = none ↔ s.run ≠ .halted
  /-- A machine that holds no program is RUNNING: only a step leaves that state (R32, R231). -/
  unloaded : s.loaded = false → s.run = .running
  /-- `pc` is at most 0x1002 (R26). -/
  pcBound : s.pc.toNat ≤ 0x1002
  /-- `pc` is even under `ODD_TARGET_POLICY = fault` (R24). -/
  pcEven : s.cfg.oddTarget = .fault → s.pc.toNat % 2 = 0
  /-- A return address in use is at most 0x1000 (40_control.md R112). -/
  stackBound : ∀ k : Fin 16, k.val < s.sp.val → s.stack[k.val].toNat ≤ 0x1000
  /-- A return address in use is even under `ODD_TARGET_POLICY = fault` (R24, R114). -/
  stackEven : s.cfg.oddTarget = .fault → ∀ k : Fin 16, k.val < s.sp.val → s.stack[k.val].toNat % 2 = 0
  /-- The low region, the font in it, keeps its reset contents under `LOW_WRITE_POLICY = fault` (20_memory.md R53, R57). -/
  lowRegion : s.cfg.lowWrite = .fault → ∀ a : Nat, a < 0x200 → s.readByte a = resetByte s.cfg a

/-- What an instruction may change beside `pc`. -/
structure Changes where
  /-- General registers. -/
  regs    : List Reg := []
  /-- `I`. -/
  index   : Bool := false
  /-- `SP` and the stack entries. -/
  stack   : Bool := false
  /-- `DT`. -/
  delay   : Bool := false
  /-- `ST`. -/
  sound   : Bool := false
  /-- The display buffer. -/
  display : Bool := false
  /-- `run` and `wait_reg`. -/
  wait    : Bool := false
  /-- The counter of draws. -/
  draws   : Bool := false
  /-- Addresses of memory. -/
  bytes   : List Nat := []

/-- From `s` to `t`, everything but `pc` and what `c` names is unchanged, down to each byte of memory. The key latch, the
fault record, the `loaded` flag and the configuration are unchanged by every instruction that completes. -/
structure Frame (c : Changes) (s t : State) : Prop where
  regs    : ∀ r : Reg, r ∉ c.regs → t.reg r = s.reg r
  index   : c.index = false → t.i = s.i
  sp      : c.stack = false → t.sp = s.sp
  stack   : c.stack = false → t.stack = s.stack
  delay   : c.delay = false → t.dt = s.dt
  sound   : c.sound = false → t.st = s.st
  display : c.display = false → ∀ (col : Fin 64) (row : Fin 32), pixel t.disp col row = pixel s.disp col row
  run     : c.wait = false → t.run = s.run
  waitReg : c.wait = false → t.waitReg = s.waitReg
  draws   : c.draws = false → t.draws = s.draws
  bytes   : ∀ a : Nat, a ∉ c.bytes → t.readByte a = s.readByte a
  key     : t.key = s.key
  fault   : t.fault = s.fault
  loaded  : t.loaded = s.loaded
  cfg     : t.cfg = s.cfg

/-- The word with major opcode `o` and a 12-bit address (30_encoding.md R81, format A). -/
def wordA (o nnn : Nat) : Word := BitVec.ofNat 16 (0x1000 * o + nnn)

/-- The word with major opcode `o`, register `x` and the low byte `kk` (30_encoding.md R81, formats RB and R). -/
def wordRB (o x kk : Nat) : Word := BitVec.ofNat 16 (0x1000 * o + 0x100 * x + kk)

/-- The word with major opcode `o`, registers `x` and `y` and the low nibble `n` (30_encoding.md R81, formats RR and RRN). -/
def wordRR (o x y n : Nat) : Word := BitVec.ofNat 16 (0x1000 * o + 0x100 * x + 0x10 * y + n)

/-- The state that fatal error `e` leaves of a step begun in `s` (60_exceptions.md R234). -/
def haltedWith (e : Fault) (s : State) : State := { s with run := .halted, fault := some e }

/-- A transfer target that `ValidateTarget` accepts (40_control.md R110). -/
def validTarget (cfg : Config) (t : Nat) : Prop := t ≤ 0xFFE ∧ (t % 2 = 0 ∨ cfg.oddTarget = .allow)

/-- A store of `n` bytes from `a` on that passes every check of 20_memory.md R57. -/
def storable (cfg : Config) (a n : Nat) : Prop := a + n ≤ 0x1000 ∧ (0x200 ≤ a ∨ cfg.lowWrite = .allow)

/-- The bit of the sprite `b[0..h-1]` drawn at `(cx, cy)` that falls on pixel `(c, r)`, false where none does (43_display.md R191). -/
def spriteBit (cx cy : Byte) (h : Nat) (b : Nat → Byte) (c : Fin 64) (r : Fin 32) : Bool :=
  let col := (c.val + 64 - cx.toNat % 64) % 64
  let row := (r.val + 32 - cy.toNat % 32) % 32
  decide (col < 8) && decide (row < h) && (b row).getLsbD (7 - col)

end Sys2Proof.Safety
end

