-- ==== Sys2Proof/Certificates/Slice0/Obligations.lean ====
section
/-! DEFINITION. The statements for the provers. Each says what an instruction, the step or a host operation does, for every state and every configuration of 00_scope.md R3. -/

open Sys2Proof Sys2Proof.Machine Sys2Proof.Safety

/-! ### Encoding and decoding (30_encoding.md) -/

/-- Words written out from the encodings of R83 to R86 decode to their instruction, one or two of each family; the source's own words 6A02, 00E0 and FFFF are among them (S6, S7, S8). -/
def Obligations.SpecWordsDecodeToTheirInstruction : Prop :=
  decodeTableWord 16 0x0123 = some (.sys 0x123) ∧ decodeTableWord 16 0x00E0 = some .cls ∧
  decodeTableWord 16 0x00EE = some .ret ∧ decodeTableWord 16 0x2400 = some (.call 0x400) ∧
  decodeTableWord 16 0x3310 = some (.seImm 3 0x10) ∧ decodeTableWord 16 0x5121 = some (.seReg 1 2 1) ∧
  decodeTableWord 16 0x6A02 = some (.ldImm 10 0x02) ∧ decodeTableWord 16 0x8126 = some (.shr 1 2) ∧
  decodeTableWord 16 0xA2F0 = some (.ldI 0x2F0) ∧ decodeTableWord 16 0xD015 = some (.drw 0 1 5) ∧
  decodeTableWord 16 0xE2A1 = some (.sknp 2) ∧ decodeTableWord 16 0xF255 = some (.ldMemVx 2) ∧
  decodeTableWord 16 0x8128 = none ∧ decodeTableWord 16 0xFFFF = none

/-- Decoding what was encoded gives the instruction back, as a word and as bytes in memory order, with every operand at every value (R80 to R87). -/
def Obligations.DecodeOfEncodeIsTheInstruction : Prop :=
  ∀ (cfg : Config) (i : Instr), i.wellFormed cfg = true →
    decode cfg (encode i) = some i ∧
    ∀ rest : List Byte, decodeBytes cfg (encodeBytes i ++ rest) = some (i, rest)

/-- No word has two meanings and none loses a bit: encoding what was decoded gives the word back (R83), and what the decoder gives is well formed. -/
def Obligations.EncodeOfDecodeIsTheWord : Prop :=
  ∀ (cfg : Config) (op : Word) (i : Instr), decode cfg op = some i → encode i = op ∧ i.wellFormed cfg = true

/-- The Illegal words are exactly those that R88 lists. R88 derives the list from R84, R85 and R86. -/
def Obligations.IllegalWordsAreExactlyThoseListed : Prop :=
  ∀ (cfg : Config) (op : Word), decode cfg op = none ↔
    (op.toNat / 0x1000 = 0x8 ∧ op.toNat % 0x10 ∈ [0x8, 0x9, 0xA, 0xB, 0xC, 0xD, 0xF]) ∨
    (op.toNat / 0x1000 = 0xE ∧ op.toNat % 0x100 ∉ [0x9E, 0xA1]) ∨
    (op.toNat / 0x1000 = 0xF ∧
      op.toNat % 0x100 ∉ [0x07, 0x0A, 0x15, 0x18, 0x1E, 0x29, 0x33, 0x55, 0x65]) ∨
    (cfg.lowNibble = .strict ∧ (op.toNat / 0x1000 = 0x5 ∨ op.toNat / 0x1000 = 0x9) ∧ op.toNat % 0x10 ≠ 0)

/-- The bytes of an assembler line (its form: R90) are those of the instruction it was written for (R81, R83 to R85); those of SE and SNE of two registers have low nibble 0, the encodings 5xy0 and 9xy0 (R86, R119, R120); SHR and SHL of one operand have `y = 0` (R90). That a line is data, a mnemonic and operands, is the model's choice (log 18). -/
def Obligations.AssemblerFormsStandForTheirInstruction : Prop :=
  (∀ (cfg : Config) (i : Instr), cfg.lowNibble = .strict → i.wellFormed cfg = true →
    assemble (asmOf i) = some (encodeBytes i)) ∧
  ∀ x : Reg, assemble (.instr .SHR [.reg x]) = some (encodeBytes (.shr x 0)) ∧
    assemble (.instr .SHL [.reg x]) = some (encodeBytes (.shl x 0))

/-! ### The step (60_exceptions.md) -/

/-- A step of a loaded, RUNNING machine whose two bytes at `pc` decode to `i` is exactly `exec i` on the same state (R230); `exec` does `pc <- addr0 + 2` itself, and the step adds nothing. -/
def Obligations.StepExecutesTheDecodedInstruction : Prop :=
  ∀ (s : State) (i : Instr), s.loaded = true → s.run = .running → s.pc.toNat ≤ 0xFFE →
    decodeBytes s.cfg [s.readByte s.pc.toNat, s.readByte (s.pc.toNat + 1)] = some (i, []) →
    step s = exec i s

/-- A word placed by `withFetchWord` is the next instruction executed (the model's own interface, log 5). -/
def Obligations.PlacedWordIsTheNextInstruction : Prop :=
  ∀ (s : State) (w : Nat) (i : Instr), decode s.cfg (BitVec.ofNat 16 w) = some i →
    step (s.withFetchWord 16 w) = exec i (s.withFetchWord 16 w)

/-- Fetch (20_memory.md R59): past 0xFFE it raises FetchOutOfBounds(pc); else the word is big-endian. -/
def Obligations.FetchReadsTheBigEndianWordOrFails : Prop :=
  ∀ s : State,
    (0xFFF < s.pc.toNat + 1 → s.loaded = true → s.run = .running →
      step s = .next (haltedWith (.fetchOutOfBounds s.pc) s)) ∧
    (s.pc.toNat + 1 ≤ 0xFFF → ∃ op : Word, fetch s = .ok op ∧
      op.toNat = 256 * (s.readByte s.pc.toNat).toNat + (s.readByte (s.pc.toNat + 1)).toNat)

/-- A word that decodes to Illegal halts the machine with IllegalOpcode and the raw word (30_encoding.md R88). -/
def Obligations.IllegalWordHaltsWithTheRawWord : Prop :=
  ∀ (s : State) (op : Word), s.loaded = true → s.run = .running → fetch s = .ok op → decode s.cfg op = none →
    step s = .next (haltedWith (.illegalOpcode op) s) ∧ stepReply s = .fatal (some (.illegalOpcode op))

/-- Before a successful loadROM, step() returns NotLoaded and changes nothing; a later successful loadROM gives a RUNNING machine (R231). -/
def Obligations.StepBeforeLoadChangesNothing : Prop :=
  ∀ s : State, s.loaded = false →
    step s = .next s ∧ stepReply s = .notLoaded ∧
    ∀ bytes : List Byte, bytes.length ≤ 3584 → (loadROM bytes s).loaded = true ∧ (loadROM bytes s).run = .running

/-- In HALTED, step() returns the fault record and changes nothing; only reset() and loadROM leave HALTED (R235). -/
def Obligations.HaltedStepRepeatsTheRecord : Prop :=
  ∀ s : State, s.loaded = true → s.run = .halted →
    step s = .next s ∧ stepReply s = .fatal s.fault ∧
    (resetMachine s).run = .running ∧ (∀ bytes : List Byte, (loadROM bytes s).run = .running) ∧
    (tickTimers s).run = .halted ∧ ∀ (index : Nat) (pressed : Bool), (setKey index pressed s).run = .halted

/-- A fatal step undoes every write: the state after is the state when the step began but for `run` and the fault record, and the step returns that error (R234). -/
def Obligations.FatalStepUndoesEveryWrite : Prop :=
  ∀ s t : State, s.loaded = true → s.run = .running → step s = .next t → t.run = .halted →
    ∃ e : Fault, t = haltedWith e s ∧ stepReply s = .fatal (some e)

/-- A step in AWAITING_KEY (44_timers_input.md R217): with no key it changes nothing, else the least pressed key goes to `V[wait_reg]`, the machine is RUNNING and nothing is fetched. That `wait_reg` keeps its value after the wait, where R33 gives it no meaning, is the model's reading of R217 (log 15). -/
def Obligations.KeyWaitStepTakesTheLeastKey : Prop :=
  ∀ s : State, s.loaded = true → s.run = .awaitingKey →
    ((∀ k : Fin 16, s.key[k.val] = false) → step s = .next s ∧ stepReply s = .awaitingKey) ∧
    ∀ k : Fin 16, s.key[k.val] = true → (∀ j : Fin 16, j.val < k.val → s.key[j.val] = false) →
      ∃ t : State, step s = .next t ∧ stepReply s = .advanced ∧ (t.reg s.waitReg).toNat = k.val ∧
        t.run = .running ∧ t.waitReg = s.waitReg ∧ t.pc = s.pc ∧ Frame { regs := [s.waitReg], wait := true } s t

/-- Every step answers a next state. That a fatal error (R234), a HALTED step (R235) and a step before a load (R231) are next states, and not the outcomes `fault` or `refused`, is the model's reading of those rules (log 3); that this holds of states no run reaches too is the model's choice (log 16). -/
def Obligations.EveryStepAnswersANextState : Prop :=
  ∀ s : State, ∃ t : State, step s = .next t

/-- The run state changes only as 10_state.md R32 allows: a step enters AWAITING_KEY only by Fx0A, leaves it only to RUNNING with a key pressed, and never leaves HALTED. -/
def Obligations.RunStateMovesOnlyAsAllowed : Prop :=
  ∀ s t : State, step s = .next t →
    (s.run ≠ .awaitingKey → t.run = .awaitingKey →
      ∃ (op : Word) (x : Reg), fetch s = .ok op ∧ decode s.cfg op = some (.ldVxK x) ∧ t.waitReg = x) ∧
    (s.run = .awaitingKey → t.run ≠ .awaitingKey → t.run = .running ∧ ∃ k : Fin 16, s.key[k.val] = true) ∧
    (s.run = .halted → t.run = .halted)

/-- No step writes what belongs to the host: the key latch (10_state.md R31), the `loaded` flag (R35) and the configuration (R37). -/
def Obligations.StepKeepsHostOwnedState : Prop :=
  ∀ s t : State, step s = .next t → t.key = s.key ∧ t.loaded = s.loaded ∧ t.cfg = s.cfg

/-- Each piece of state is written only by the instructions the spec names: `I` (10_state.md R22), the stack (R27), the timers (R29), the display (R30), the run state (R32), memory (20_memory.md R50), the counter of draws (log 2). -/
def Obligations.OnlyNamedInstructionsWriteEachPiece : Prop :=
  ∀ (i : Instr) (s t : State), exec i s = .next t →
    (t.i ≠ s.i → (∃ nnn, i = .ldI nnn) ∨ (∃ x, i = .addI x) ∨ (∃ x, i = .ldF x) ∨
      ((∃ x, i = .ldMemVx x ∨ i = .ldVxMem x) ∧ s.cfg.loadStoreIndex ≠ .unchanged)) ∧
    (t.stack ≠ s.stack ∨ t.sp ≠ s.sp → i = .ret ∨ ∃ nnn, i = .call nnn) ∧
    (t.dt ≠ s.dt → ∃ x, i = .ldDtVx x) ∧
    (t.st ≠ s.st → ∃ x, i = .ldStVx x) ∧
    (t.disp ≠ s.disp → i = .cls ∨ ∃ x y n, i = .drw x y n) ∧
    (t.run ≠ s.run → t.run = .halted ∨ ∃ x, i = .ldVxK x) ∧
    ((∃ a : Nat, t.readByte a ≠ s.readByte a) → ∃ x, i = .ldB x ∨ i = .ldMemVx x) ∧
    (t.draws ≠ s.draws → ∃ x kk, i = .rnd x kk)

/-- Each piece of state is read only by the instructions the spec names: changing it before any other instruction changes nothing else after. `I` (10_state.md R22), `DT` and `ST` (R29), the key latch (R31). -/
def Obligations.OnlyNamedInstructionsReadEachPiece : Prop :=
  ∀ (i : Instr) (s t : State), exec i s = .next t →
    (∀ w : Word, (∀ x, i ≠ .addI x) → (∀ x, i ≠ .ldB x) → (∀ x, i ≠ .ldMemVx x) → (∀ x, i ≠ .ldVxMem x) →
      (∀ x y n, i ≠ .drw x y n) → ∃ u, exec i { s with i := w } = .next u ∧ { u with i := t.i } = t) ∧
    (∀ b : Byte, (∀ x, i ≠ .ldVxDt x) → ∃ u, exec i { s with dt := b } = .next u ∧ { u with dt := t.dt } = t) ∧
    (∀ b : Byte, ∃ u, exec i { s with st := b } = .next u ∧ { u with st := t.st } = t) ∧
    (∀ key : Vector Bool 16, (∀ x, i ≠ .skp x) → (∀ x, i ≠ .sknp x) →
      ∃ u, exec i { s with key := key } = .next u ∧ { u with key := t.key } = t)

/-! ### The invariant -/

/-- The reset state of every configuration meets the invariant. -/
def Obligations.ResetMeetsTheInvariant : Prop :=
  Inv State.reset ∧ ∀ cfg : Config, Inv (State.resetWith cfg)

/-- Every step keeps the invariant: canonical memory, the fault record in HALTED only (10_state.md R34), `pc` even and at most 0x1002 (R24, R26), return addresses even and at most 0x1000, the low region intact (20_memory.md R53). R24 and R26 are the spec's own inferences. -/
def Obligations.StepKeepsTheInvariant : Prop :=
  ∀ s t : State, Inv s → step s = .next t → Inv t

/-- Every serial run of host operations keeps the invariant, whatever the host does (60_exceptions.md R255, 70_reset_and_hazards.md R280). -/
def Obligations.HostRunsKeepTheInvariant : Prop :=
  ∀ (s : State) (ops : List HostOp), Inv s → Inv (hostRun ops s)

/-- Two canonical memories that read alike at every address are the same list: equal memories are equal data (log 6). -/
def Obligations.CanonicalMemoriesThatReadAlikeAreEqual : Prop :=
  ∀ (cfg : Config) (m m' : List Host.Cell), Memory.wf cfg m = true → Memory.wf cfg m' = true →
    (∀ a : Nat, Memory.read cfg m a = Memory.read cfg m' a) → m = m'

/-! ### Reset and the host interface (70_reset_and_hazards.md, 60_exceptions.md) -/

/-- `reset()` sets every piece of state to its reset value (R270). -/
def Obligations.ResetSetsEveryPieceOfState : Prop :=
  ∀ s : State,
    (∀ r : Reg, (resetMachine s).reg r = 0) ∧ (resetMachine s).i = 0 ∧ (resetMachine s).pc = 0x200 ∧
    (∀ k : Fin 16, (resetMachine s).stack[k.val] = 0) ∧ (resetMachine s).sp = 0 ∧
    (resetMachine s).dt = 0 ∧ (resetMachine s).st = 0 ∧
    (∀ (c : Fin 64) (r : Fin 32), pixel (resetMachine s).disp c r = false) ∧
    (∀ k : Fin 16, (resetMachine s).key[k.val] = false) ∧
    (∀ j : Nat, j < 80 → (resetMachine s).readByte (s.cfg.fontBase.val + j) = fontBytes.getD j 0) ∧
    (∀ a : Nat, a < s.cfg.fontBase.val ∨ s.cfg.fontBase.val + 80 ≤ a → (resetMachine s).readByte a = 0) ∧
    (resetMachine s).run = .running ∧ (resetMachine s).waitReg = 0 ∧ (resetMachine s).fault = none ∧
    (resetMachine s).loaded = false

/-- `reset()` is idempotent, because it reads no state: only the model's own configuration and counter of draws go through it (R271, log 2). R271 is the spec's own inference from R270. -/
def Obligations.ResetIsIdempotent : Prop :=
  ∀ s : State, resetMachine (resetMachine s) = resetMachine s ∧
    ∀ t : State, t.cfg = s.cfg → t.draws = s.draws → resetMachine t = resetMachine s

/-- `loadROM` resets, always; then it puts byte `j` of the image at `0x200 + j` and sets `loaded`, or rejects an image that does not fit (R274). -/
def Obligations.LoadPutsTheImageOrRejectsIt : Prop :=
  ∀ (bytes : List Byte) (s : State),
    (4096 < bytes.length + 0x200 → loadROM bytes s = resetMachine s ∧ (loadROM bytes s).loaded = false ∧
      hostReply (.loadROM bytes) s = .loadError) ∧
    (bytes.length + 0x200 ≤ 4096 → hostReply (.loadROM bytes) s = .ok ∧ (loadROM bytes s).loaded = true ∧
      (∀ j : Nat, j < bytes.length → (loadROM bytes s).readByte (0x200 + j) = bytes.getD j 0) ∧
      (∀ a : Nat, a < 0x200 ∨ 0x200 + bytes.length ≤ a →
        (loadROM bytes s).readByte a = (resetMachine s).readByte a) ∧
      { loadROM bytes s with mem := [], loaded := false } = resetMachine s)

/-- `tickTimers()` takes one off each timer that is above 0, and changes nothing else (R250). -/
def Obligations.TickTakesOneOffEachTimer : Prop :=
  ∀ s : State,
    (0 < s.dt.toNat → (tickTimers s).dt.toNat + 1 = s.dt.toNat) ∧ (s.dt = 0 → (tickTimers s).dt = 0) ∧
    (0 < s.st.toNat → (tickTimers s).st.toNat + 1 = s.st.toNat) ∧ (s.st = 0 → (tickTimers s).st = 0) ∧
    { tickTimers s with dt := s.dt, st := s.st } = s

/-- After any number of ticks each timer is the old value less that number, never below 0 (R250, R252). -/
def Obligations.TicksCountDownToZero : Prop :=
  ∀ (n : Nat) (s : State),
    (hostRun (List.replicate n .tickTimers) s).dt.toNat = s.dt.toNat - n ∧
    (hostRun (List.replicate n .tickTimers) s).st.toNat = s.st.toNat - n ∧
    { hostRun (List.replicate n .tickTimers) s with dt := s.dt, st := s.st } = s

/-- `setKey` rejects an index above 0xF and changes nothing; else it writes that latch bit alone (R253). -/
def Obligations.SetKeyWritesOneLatchBit : Prop :=
  ∀ (index : Nat) (pressed : Bool) (s : State),
    (0xF < index → setKey index pressed s = s ∧ hostReply (.setKey index pressed) s = .invalidKeyIndex) ∧
    ∀ k : Fin 16, k.val = index →
      hostReply (.setKey index pressed) s = .ok ∧ (setKey index pressed s).key[k.val] = pressed ∧
      (∀ j : Fin 16, j ≠ k → (setKey index pressed s).key[j.val] = s.key[j.val]) ∧
      { setKey index pressed s with key := s.key } = s

/-- `isSoundActive()` is true exactly when the sound timer is above 0 (R251); `getDisplay()` returns the display (43_display.md R195) and the observation the state (10_state.md R38; the table of R255); none of the three changes state. -/
def Obligations.OutputsTellTheStateAndChangeNothing : Prop :=
  ∀ s : State, (isSoundActive s = true ↔ 0 < s.st.toNat) ∧
    hostReply .isSoundActive s = .sound (isSoundActive s) ∧ hostNext .isSoundActive s = s ∧
    hostReply .getDisplay s = .display s.disp ∧ hostNext .getDisplay s = s ∧
    hostReply .observe s = .observed s ∧ hostNext .observe s = s

/-! ### Control transfer and skips (40_control.md) -/

/-- SYS (R111): a no-op under `SYS_POLICY = nop`, IllegalOpcode with its word under `illegal`. The encoding is as the rule gives it. -/
def Obligations.SysIsANoOpOrIllegal : Prop :=
  ∀ (nnn : Addr) (s : State),
    (nnn ≠ 0x0E0 → nnn ≠ 0x0EE → decode s.cfg (wordA 0x0 nnn.toNat) = some (.sys nnn)) ∧
    (s.cfg.sysPolicy = .nop → ∃ t : State, exec (.sys nnn) s = .next t ∧ t.pc = s.pc + 2 ∧ Frame {} s t) ∧
    (s.cfg.sysPolicy = .illegal →
      exec (.sys nnn) s = .next (haltedWith (.illegalOpcode (wordA 0x0 nnn.toNat)) s))

/-- RET (R112): the top entry, if it is a valid target, becomes `pc` and the depth drops by one; StackUnderflow comes before the target checks. The encoding is as the rule gives it. -/
def Obligations.ReturnPopsTheTarget : Prop :=
  ∀ s : State,
    decode s.cfg 0x00EE = some .ret ∧
    (s.sp.val = 0 → exec .ret s = .next (haltedWith .stackUnderflow s)) ∧
    ∀ k : Fin 16, s.sp.val = k.val + 1 →
      (validTarget s.cfg s.stack[k.val].toNat → ∃ t : State, exec .ret s = .next t ∧ t.pc = s.stack[k.val] ∧
        t.sp.val = k.val ∧ t.stack = s.stack ∧ Frame { stack := true } s t) ∧
      (0xFFE < s.stack[k.val].toNat → exec .ret s = .next (haltedWith (.outOfBounds s.stack[k.val]) s)) ∧
      (s.stack[k.val].toNat ≤ 0xFFE → s.stack[k.val].toNat % 2 = 1 → s.cfg.oddTarget = .fault →
        exec .ret s = .next (haltedWith (.misalignedTarget s.stack[k.val]) s))

/-- JP addr (R113). The encoding is as the rule gives it. -/
def Obligations.JumpGoesToTheTarget : Prop :=
  ∀ (nnn : Addr) (s : State),
    decode s.cfg (wordA 0x1 nnn.toNat) = some (.jp nnn) ∧
    (validTarget s.cfg nnn.toNat →
      ∃ t : State, exec (.jp nnn) s = .next t ∧ t.pc.toNat = nnn.toNat ∧ Frame {} s t) ∧
    (nnn = 0xFFF → exec (.jp nnn) s = .next (haltedWith (.outOfBounds 0x0FFF) s)) ∧
    (nnn ≠ 0xFFF → nnn.toNat % 2 = 1 → s.cfg.oddTarget = .fault →
      exec (.jp nnn) s = .next (haltedWith (.misalignedTarget (BitVec.ofNat 16 nnn.toNat)) s))

/-- CALL addr (R114): the return address goes on the stack; StackOverflow comes before the target checks, and a failing check undoes the push. The encoding is as the rule gives it. -/
def Obligations.CallPushesTheReturnAddress : Prop :=
  ∀ (nnn : Addr) (s : State),
    decode s.cfg (wordA 0x2 nnn.toNat) = some (.call nnn) ∧
    (s.sp.val = 16 → exec (.call nnn) s = .next (haltedWith .stackOverflow s)) ∧
    ∀ k : Fin 16, s.sp.val = k.val →
      (validTarget s.cfg nnn.toNat → ∃ t : State, exec (.call nnn) s = .next t ∧ t.pc.toNat = nnn.toNat ∧
        t.sp.val = k.val + 1 ∧ t.stack[k.val] = s.pc + 2 ∧
        (∀ j : Fin 16, j ≠ k → t.stack[j.val] = s.stack[j.val]) ∧ Frame { stack := true } s t) ∧
      (nnn = 0xFFF → exec (.call nnn) s = .next (haltedWith (.outOfBounds 0x0FFF) s)) ∧
      (nnn ≠ 0xFFF → nnn.toNat % 2 = 1 → s.cfg.oddTarget = .fault →
        exec (.call nnn) s = .next (haltedWith (.misalignedTarget (BitVec.ofNat 16 nnn.toNat)) s))

/-- JP V0, addr (R115): `nnn` plus `V0`, or plus `V[x]` with `x` the high digit of `nnn`, without wrap. The encoding is as the rule gives it. -/
def Obligations.JumpWithOffsetAddsTheRegister : Prop :=
  ∀ (nnn : Addr) (s : State) (r : Reg) (t : Nat),
    (s.cfg.jumpOffset = .v0 → r.val = 0) → (s.cfg.jumpOffset = .vx → r.val = nnn.toNat / 0x100) →
    t = nnn.toNat + (s.reg r).toNat →
    decode s.cfg (wordA 0xB nnn.toNat) = some (.jpV0 nnn) ∧
    (validTarget s.cfg t → ∃ u : State, exec (.jpV0 nnn) s = .next u ∧ u.pc.toNat = t ∧ Frame {} s u) ∧
    (0xFFE < t → exec (.jpV0 nnn) s = .next (haltedWith (.outOfBounds (BitVec.ofNat 16 t)) s)) ∧
    (t ≤ 0xFFE → t % 2 = 1 → s.cfg.oddTarget = .fault →
      exec (.jpV0 nnn) s = .next (haltedWith (.misalignedTarget (BitVec.ofNat 16 t)) s))

/-- A return undoes a call: `pc` is past the CALL, the depth is as before, and of the stack only the entry the call pushed has changed: it is dead and keeps the return address (R112, R114; that a dead entry is kept is log 14). The statement follows from the two rules. -/
def Obligations.ReturnUndoesCall : Prop :=
  ∀ (nnn : Addr) (s : State), s.sp.val < 16 → validTarget s.cfg nnn.toNat → validTarget s.cfg (s.pc + 2).toNat →
    ∃ t u : State, exec (.call nnn) s = .next t ∧ exec .ret t = .next u ∧ u.pc = s.pc + 2 ∧ u.sp = s.sp ∧
      Frame { stack := true } s u ∧ ∀ k : Fin 16, u.stack[k.val] = (if k.val = s.sp.val then s.pc + 2 else s.stack[k.val])

/-- The four register skips (R117 to R120): one word is passed over exactly when the comparison holds. The encoding is as the rule gives it. -/
def Obligations.SkipsCompareRegisters : Prop :=
  ∀ (x y : Reg) (kk : Byte) (n : Nibble) (s : State),
    decode s.cfg (wordRB 0x3 x.val kk.toNat) = some (.seImm x kk) ∧
    decode s.cfg (wordRB 0x4 x.val kk.toNat) = some (.sneImm x kk) ∧
    (n = 0 ∨ s.cfg.lowNibble = .ignore →
      decode s.cfg (wordRR 0x5 x.val y.val n.toNat) = some (.seReg x y n) ∧
      decode s.cfg (wordRR 0x9 x.val y.val n.toNat) = some (.sneReg x y n)) ∧
    (∃ t : State, exec (.seImm x kk) s = .next t ∧
      t.pc = (if (s.reg x).toNat = kk.toNat then s.pc + 4 else s.pc + 2) ∧ Frame {} s t) ∧
    (∃ t : State, exec (.sneImm x kk) s = .next t ∧
      t.pc = (if (s.reg x).toNat = kk.toNat then s.pc + 2 else s.pc + 4) ∧ Frame {} s t) ∧
    (∃ t : State, exec (.seReg x y n) s = .next t ∧
      t.pc = (if (s.reg x).toNat = (s.reg y).toNat then s.pc + 4 else s.pc + 2) ∧ Frame {} s t) ∧
    (∃ t : State, exec (.sneReg x y n) s = .next t ∧
      t.pc = (if (s.reg x).toNat = (s.reg y).toNat then s.pc + 2 else s.pc + 4) ∧ Frame {} s t) ∧
    (s.cfg.lowNibble = .strict → n ≠ 0 →
      decode s.cfg (wordRR 0x5 x.val y.val n.toNat) = none ∧ decode s.cfg (wordRR 0x9 x.val y.val n.toNat) = none)

/-! ### Register and arithmetic (41_alu.md) -/

/-- LD Vx, byte (R141), ADD Vx, byte (R142) and LD Vx, Vy (R143): the destination alone, and no flag. The encoding is as the rule gives it. -/
def Obligations.ImmediateAndCopyWriteTheDestination : Prop :=
  ∀ (x y : Reg) (kk : Byte) (s : State),
    decode s.cfg (wordRB 0x6 x.val kk.toNat) = some (.ldImm x kk) ∧
    decode s.cfg (wordRB 0x7 x.val kk.toNat) = some (.addImm x kk) ∧
    decode s.cfg (wordRR 0x8 x.val y.val 0x0) = some (.ldReg x y) ∧
    (∃ t : State, exec (.ldImm x kk) s = .next t ∧ t.reg x = kk ∧ t.pc = s.pc + 2 ∧ Frame { regs := [x] } s t) ∧
    (∃ t : State, exec (.addImm x kk) s = .next t ∧ (t.reg x).toNat = ((s.reg x).toNat + kk.toNat) % 256 ∧
      t.pc = s.pc + 2 ∧ Frame { regs := [x] } s t) ∧
    (∃ t : State, exec (.ldReg x y) s = .next t ∧ t.reg x = s.reg y ∧ t.pc = s.pc + 2 ∧ Frame { regs := [x] } s t)

/-- OR, AND and XOR (R144 to R146): `VF <- 0`, last, under QUIRK_LOGIC_VF_RESET, and no flag without it. The encoding is as the rule gives it. -/
def Obligations.LogicWritesTheDestinationAndMaybeTheFlag : Prop :=
  ∀ (x y : Reg) (s : State) (i : Instr) (n : Nat) (result : Byte),
    (i = .orReg x y ∧ n = 0x1 ∧ result = s.reg x ||| s.reg y) ∨
      (i = .andReg x y ∧ n = 0x2 ∧ result = s.reg x &&& s.reg y) ∨
      (i = .xorReg x y ∧ n = 0x3 ∧ result = s.reg x ^^^ s.reg y) →
    decode s.cfg (wordRR 0x8 x.val y.val n) = some i ∧ ∃ t : State, exec i s = .next t ∧ t.pc = s.pc + 2 ∧
      (s.cfg.logicVfReset = true → t.reg VF = 0 ∧ (x ≠ VF → t.reg x = result) ∧ Frame { regs := [x, VF] } s t) ∧
      (s.cfg.logicVfReset = false → t.reg x = result ∧ Frame { regs := [x] } s t)

/-- ADD Vx, Vy (R147): the sum wraps, and VF, written last, is the carry. The encoding is as the rule gives it. -/
def Obligations.AddReportsTheCarry : Prop :=
  ∀ (x y : Reg) (s : State), decode s.cfg (wordRR 0x8 x.val y.val 0x4) = some (.addReg x y) ∧
    ∃ t : State, exec (.addReg x y) s = .next t ∧ t.pc = s.pc + 2 ∧
    (x ≠ VF → (t.reg x).toNat = ((s.reg x).toNat + (s.reg y).toNat) % 256) ∧
    (t.reg VF).toNat = (if (s.reg x).toNat + (s.reg y).toNat > 0xFF then 1 else 0) ∧ Frame { regs := [x, VF] } s t

/-- SUB (R148) and SUBN (R150): the difference wraps, and VF, written last, is 1 when there is no borrow. The encoding is as the rule gives it. -/
def Obligations.SubtractReportsNoBorrow : Prop :=
  ∀ (x y : Reg) (s : State),
    decode s.cfg (wordRR 0x8 x.val y.val 0x5) = some (.sub x y) ∧
    decode s.cfg (wordRR 0x8 x.val y.val 0x7) = some (.subn x y) ∧
    (∃ t : State, exec (.sub x y) s = .next t ∧ t.pc = s.pc + 2 ∧
      (x ≠ VF → ((t.reg x).toNat : Int) = ((s.reg x).toNat - (s.reg y).toNat : Int) % 256) ∧
      (t.reg VF).toNat = (if (s.reg x).toNat ≥ (s.reg y).toNat then 1 else 0) ∧ Frame { regs := [x, VF] } s t) ∧
    (∃ t : State, exec (.subn x y) s = .next t ∧ t.pc = s.pc + 2 ∧
      (x ≠ VF → ((t.reg x).toNat : Int) = ((s.reg y).toNat - (s.reg x).toNat : Int) % 256) ∧
      (t.reg VF).toNat = (if (s.reg y).toNat ≥ (s.reg x).toNat then 1 else 0) ∧ Frame { regs := [x, VF] } s t)

/-- SHR (R149) and SHL (R151): one bit, of `V[x]` or under QUIRK_SHIFT_SRC = vy of `V[y]`; VF, written last, is the bit shifted out. The encoding is as the rule gives it. -/
def Obligations.ShiftReportsTheBitShiftedOut : Prop :=
  ∀ (x y : Reg) (s : State) (source : Byte),
    (s.cfg.shiftSource = .vx → source = s.reg x) → (s.cfg.shiftSource = .vy → source = s.reg y) →
    decode s.cfg (wordRR 0x8 x.val y.val 0x6) = some (.shr x y) ∧
    decode s.cfg (wordRR 0x8 x.val y.val 0xE) = some (.shl x y) ∧
    (∃ t : State, exec (.shr x y) s = .next t ∧ t.pc = s.pc + 2 ∧
      (x ≠ VF → (t.reg x).toNat = source.toNat / 2) ∧ (t.reg VF).toNat = source.toNat % 2 ∧
      Frame { regs := [x, VF] } s t) ∧
    (∃ t : State, exec (.shl x y) s = .next t ∧ t.pc = s.pc + 2 ∧
      (x ≠ VF → (t.reg x).toNat = 2 * source.toNat % 256) ∧ (t.reg VF).toNat = source.toNat / 128 ∧
      Frame { regs := [x, VF] } s t)

/-- RND (R152): the drawn byte masked by `kk`, whatever byte is drawn, and no flag. The counter that selects the free byte is the model's own (log 2). The encoding is as the rule gives it. -/
def Obligations.RandomMasksTheDrawnByte : Prop :=
  ∀ (x : Reg) (kk : Byte) (s : State), decode s.cfg (wordRB 0xC x.val kk.toNat) = some (.rnd x kk) ∧
    ∃ t : State, exec (.rnd x kk) s = .next t ∧ t.pc = s.pc + 2 ∧
    t.reg x = Config.draw8 s.draws &&& kk ∧ (kk = 0 → t.reg x = 0) ∧ t.draws = s.draws + 1 ∧
    Frame { regs := [x], draws := true } s t

/-! ### Index register and memory (42_index_memory.md, 20_memory.md) -/

/-- The address of the `k`-th byte is the low 12 bits of `I` plus `k`, never masked again (20_memory.md R58). -/
def Obligations.EffectiveAddressIsLowTwelveBitsPlusOffset : Prop :=
  ∀ (i : Word) (k : Nat), ea i k = i.toNat % 0x1000 + k

/-- LD I, addr (R170) and ADD I, Vx (R171), the latter with its flag under QUIRK_INDEX_OVERFLOW_VF. The encoding is as the rule gives it. -/
def Obligations.IndexIsLoadedAndAdded : Prop :=
  ∀ (nnn : Addr) (x : Reg) (s : State),
    decode s.cfg (wordA 0xA nnn.toNat) = some (.ldI nnn) ∧ decode s.cfg (wordRB 0xF x.val 0x1E) = some (.addI x) ∧
    (∃ t : State, exec (.ldI nnn) s = .next t ∧ t.i.toNat = nnn.toNat ∧ t.pc = s.pc + 2 ∧
      Frame { index := true } s t) ∧
    (∃ t : State, exec (.addI x) s = .next t ∧ t.i.toNat = (s.i.toNat + (s.reg x).toNat) % 0x10000 ∧
      t.pc = s.pc + 2 ∧
      (s.cfg.indexOverflowVf = true →
        (t.reg VF).toNat = (if s.i.toNat + (s.reg x).toNat > 0xFFF then 1 else 0) ∧
        Frame { index := true, regs := [VF] } s t) ∧
      (s.cfg.indexOverflowVf = false → Frame { index := true } s t))

/-- LD F, Vx (R172): `I` points at the sprite of the digit. The encoding is as the rule gives it. -/
def Obligations.IndexPointsAtTheFontDigit : Prop :=
  ∀ (x : Reg) (s : State), decode s.cfg (wordRB 0xF x.val 0x29) = some (.ldF x) ∧
    ∃ t : State, exec (.ldF x) s = .next t ∧ t.pc = s.pc + 2 ∧
    (s.cfg.fontDigit = .mask → t.i.toNat = s.cfg.fontBase.val + 5 * ((s.reg x).toNat % 16)) ∧
    (s.cfg.fontDigit = .unmasked → t.i.toNat = s.cfg.fontBase.val + 5 * (s.reg x).toNat) ∧
    Frame { index := true } s t

/-- LD B, Vx (R173): three decimal digits from `EA(0)` on, hundreds first; the first failing byte is the error, and then nothing is written. The encoding is as the rule gives it. -/
def Obligations.BcdStoresThreeDigits : Prop :=
  ∀ (x : Reg) (s : State),
    decode s.cfg (wordRB 0xF x.val 0x33) = some (.ldB x) ∧
    (storable s.cfg (ea s.i 0) 3 → ∃ t : State, exec (.ldB x) s = .next t ∧ t.pc = s.pc + 2 ∧
      (t.readByte (ea s.i 0)).toNat = (s.reg x).toNat / 100 ∧
      (t.readByte (ea s.i 1)).toNat = (s.reg x).toNat / 10 % 10 ∧
      (t.readByte (ea s.i 2)).toNat = (s.reg x).toNat % 10 ∧
      Frame { bytes := [ea s.i 0, ea s.i 1, ea s.i 2] } s t) ∧
    (ea s.i 0 < 0x200 → s.cfg.lowWrite = .fault →
      exec (.ldB x) s = .next (haltedWith (.protectedWrite (BitVec.ofNat 12 (ea s.i 0))) s)) ∧
    (0xFFF < ea s.i 2 → exec (.ldB x) s = .next (haltedWith (.outOfBounds 0x1000) s))

/-- LD [I], Vx (R174): `V0` to `Vx` to memory, `I` after by QUIRK_LOADSTORE_I; the first failing byte is the error, and then nothing is written. The encoding is as the rule gives it. -/
def Obligations.DumpStoresTheRegisters : Prop :=
  ∀ (x : Reg) (s : State),
    decode s.cfg (wordRB 0xF x.val 0x55) = some (.ldMemVx x) ∧
    (storable s.cfg (ea s.i 0) (x.val + 1) → ∃ t : State, exec (.ldMemVx x) s = .next t ∧ t.pc = s.pc + 2 ∧
      (∀ k : Reg, k ≤ x → t.readByte (ea s.i k.val) = s.reg k) ∧
      (s.cfg.loadStoreIndex = .unchanged → t.i = s.i) ∧
      (s.cfg.loadStoreIndex = .plusXPlus1 → t.i.toNat = (s.i.toNat + x.val + 1) % 0x10000) ∧
      (s.cfg.loadStoreIndex = .plusX → t.i.toNat = (s.i.toNat + x.val) % 0x10000) ∧
      Frame { index := true, bytes := (List.range (x.val + 1)).map (ea s.i) } s t) ∧
    (ea s.i 0 < 0x200 → s.cfg.lowWrite = .fault →
      exec (.ldMemVx x) s = .next (haltedWith (.protectedWrite (BitVec.ofNat 12 (ea s.i 0))) s)) ∧
    (0xFFF < ea s.i x.val → exec (.ldMemVx x) s = .next (haltedWith (.outOfBounds 0x1000) s))

/-- LD Vx, [I] (R175): `V0` to `Vx` from memory, `VF` like any other; an access past 0xFFF changes no register. The encoding is as the rule gives it. -/
def Obligations.LoadFillsTheRegisters : Prop :=
  ∀ (x : Reg) (s : State),
    decode s.cfg (wordRB 0xF x.val 0x65) = some (.ldVxMem x) ∧
    (ea s.i x.val ≤ 0xFFF → ∃ t : State, exec (.ldVxMem x) s = .next t ∧ t.pc = s.pc + 2 ∧
      (∀ k : Reg, k ≤ x → t.reg k = s.readByte (ea s.i k.val)) ∧
      (s.cfg.loadStoreIndex = .unchanged → t.i = s.i) ∧
      (s.cfg.loadStoreIndex = .plusXPlus1 → t.i.toNat = (s.i.toNat + x.val + 1) % 0x10000) ∧
      (s.cfg.loadStoreIndex = .plusX → t.i.toNat = (s.i.toNat + x.val) % 0x10000) ∧
      Frame { index := true, regs := (List.finRange 16).filter (fun k => decide (k ≤ x)) } s t) ∧
    (0xFFF < ea s.i x.val → exec (.ldVxMem x) s = .next (haltedWith (.outOfBounds 0x1000) s))

/-! ### Display (43_display.md) -/

/-- CLS (R190): every pixel false, VF not written. The encoding is as the rule gives it. -/
def Obligations.ClearSetsEveryPixelFalse : Prop :=
  ∀ s : State, decode s.cfg 0x00E0 = some .cls ∧ ∃ t : State, exec .cls s = .next t ∧ t.pc = s.pc + 2 ∧
    (∀ (c : Fin 64) (r : Fin 32), pixel t.disp c r = false) ∧ Frame { display := true } s t

/-- The sprite-draw primitive (R191): each pixel is xored with the one sprite bit that falls on it, with wrap on both axes, and the collision bit tells whether a set pixel was cleared. -/
def Obligations.SpriteIsXoredWithWrapAround : Prop :=
  ∀ (d : Display) (cx cy : Byte) (bytes : List Byte), bytes.length ≤ 15 →
    (∀ (c : Fin 64) (r : Fin 32), pixel (drawSprite d cx cy bytes).1 c r =
      (pixel d c r ^^ spriteBit cx cy bytes.length (fun k => bytes.getD k 0) c r)) ∧
    ((drawSprite d cx cy bytes).2 = true ↔ ∃ (c : Fin 64) (r : Fin 32), pixel d c r = true ∧
      spriteBit cx cy bytes.length (fun k => bytes.getD k 0) c r = true)

/-- DRW with `n ≥ 1` (R192): the `n` bytes at `I` are drawn at `(V[x], V[y])`, read before the flag is written; an access past 0xFFF draws nothing. The encoding is as the rule gives it. -/
def Obligations.DrawXorsTheBytesAtIndex : Prop :=
  ∀ (x y : Reg) (n : Nibble) (s : State), n ≠ 0 →
    decode s.cfg (wordRR 0xD x.val y.val n.toNat) = some (.drw x y n) ∧
    (ea s.i (n.toNat - 1) ≤ 0xFFF → ∃ t : State, exec (.drw x y n) s = .next t ∧ t.pc = s.pc + 2 ∧
      (∀ (c : Fin 64) (r : Fin 32), pixel t.disp c r = (pixel s.disp c r ^^
        spriteBit (s.reg x) (s.reg y) n.toNat (fun k => s.readByte (ea s.i k)) c r)) ∧
      ((t.reg VF).toNat = 1 ↔ ∃ (c : Fin 64) (r : Fin 32), pixel s.disp c r = true ∧ pixel t.disp c r = false) ∧
      ((t.reg VF).toNat = 0 ↔ ¬ ∃ (c : Fin 64) (r : Fin 32), pixel s.disp c r = true ∧ pixel t.disp c r = false) ∧
      Frame { regs := [VF], display := true } s t) ∧
    (0xFFF < ea s.i (n.toNat - 1) → exec (.drw x y n) s = .next (haltedWith (.outOfBounds 0x1000) s))

/-- Dxy0 (R193): IllegalOpcode under DRAW_ZERO_HEIGHT = illegal, else nothing drawn and `VF = 0`. The encoding is as the rule gives it. -/
def Obligations.ZeroHeightDrawIsIllegalOrClearsTheFlag : Prop :=
  ∀ (x y : Reg) (s : State),
    decode s.cfg (wordRR 0xD x.val y.val 0) = some (.drw x y 0) ∧
    (s.cfg.zeroHeight = .illegal → exec (.drw x y 0) s =
      .next (haltedWith (.illegalOpcode (wordRR 0xD x.val y.val 0)) s)) ∧
    (s.cfg.zeroHeight = .nop → ∃ t : State, exec (.drw x y 0) s = .next t ∧ t.pc = s.pc + 2 ∧ t.reg VF = 0 ∧
      Frame { regs := [VF] } s t)

/-- Drawing the same sprite twice restores the display, and the second draw reports a collision exactly when the first set a pixel (R194). R194 is the spec's own inference from R191. -/
def Obligations.DrawingTwiceRestoresTheDisplay : Prop :=
  ∀ (x y : Reg) (n : Nibble) (s : State), n ≠ 0 → x ≠ VF → y ≠ VF → ea s.i (n.toNat - 1) ≤ 0xFFF →
    ∃ t u : State, exec (.drw x y n) s = .next t ∧ exec (.drw x y n) t = .next u ∧ u.disp = s.disp ∧
      ((u.reg VF).toNat = 1 ↔ ∃ (c : Fin 64) (r : Fin 32), pixel s.disp c r = false ∧ pixel t.disp c r = true) ∧
      ((∃ (c : Fin 64) (r : Fin 32),
          spriteBit (s.reg x) (s.reg y) n.toNat (fun k => s.readByte (ea s.i k)) c r = true) →
        (∀ (c : Fin 64) (r : Fin 32),
          spriteBit (s.reg x) (s.reg y) n.toNat (fun k => s.readByte (ea s.i k)) c r = true →
          pixel s.disp c r = true) →
        (t.reg VF).toNat = 1 ∧ (u.reg VF).toNat = 0)

/-! ### Timers and keys (44_timers_input.md) -/

/-- SKP (R211) and SKNP (R212) on key `KeyIndex(V[x])`, which is `V[x]`, or its low nibble, or BadOperand with the instruction's word (R210). The encoding is as the rule gives it. -/
def Obligations.KeySkipsTestTheLatch : Prop :=
  ∀ (x : Reg) (s : State) (k : Fin 16), k.val = (s.reg x).toNat % 16 →
    decode s.cfg (wordRB 0xE x.val 0x9E) = some (.skp x) ∧ decode s.cfg (wordRB 0xE x.val 0xA1) = some (.sknp x) ∧
    ((s.reg x).toNat ≤ 0xF ∨ s.cfg.keyIndex = .mask →
      (∃ t : State, exec (.skp x) s = .next t ∧
        t.pc = (if s.key[k.val] = true then s.pc + 4 else s.pc + 2) ∧ Frame {} s t) ∧
      (∃ t : State, exec (.sknp x) s = .next t ∧
        t.pc = (if s.key[k.val] = true then s.pc + 2 else s.pc + 4) ∧ Frame {} s t)) ∧
    (0xF < (s.reg x).toNat → s.cfg.keyIndex = .fault →
      exec (.skp x) s = .next (haltedWith (.badOperand (wordRB 0xE x.val 0x9E)) s) ∧
      exec (.sknp x) s = .next (haltedWith (.badOperand (wordRB 0xE x.val 0xA1)) s))

/-- LD Vx, DT (R213), LD DT, Vx (R214) and LD ST, Vx (R215). The encoding is as the rule gives it. -/
def Obligations.TimersAreReadAndSet : Prop :=
  ∀ (x : Reg) (s : State),
    decode s.cfg (wordRB 0xF x.val 0x07) = some (.ldVxDt x) ∧
    decode s.cfg (wordRB 0xF x.val 0x15) = some (.ldDtVx x) ∧
    decode s.cfg (wordRB 0xF x.val 0x18) = some (.ldStVx x) ∧
    (∃ t : State, exec (.ldVxDt x) s = .next t ∧ t.reg x = s.dt ∧ t.pc = s.pc + 2 ∧ Frame { regs := [x] } s t) ∧
    (∃ t : State, exec (.ldDtVx x) s = .next t ∧ t.dt = s.reg x ∧ t.pc = s.pc + 2 ∧ Frame { delay := true } s t) ∧
    (∃ t : State, exec (.ldStVx x) s = .next t ∧ t.st = s.reg x ∧ t.pc = s.pc + 2 ∧ Frame { sound := true } s t ∧
      (isSoundActive t = true ↔ 0 < (s.reg x).toNat))

/-- LD Vx, K (R216): the machine waits, even with a key pressed, `pc` is past the instruction, and the step returns AwaitingKey. The encoding is as the rule gives it. -/
def Obligations.KeyWaitStartsWithoutCompleting : Prop :=
  ∀ (x : Reg) (s : State),
    decode s.cfg (wordRB 0xF x.val 0x0A) = some (.ldVxK x) ∧
    (∃ t : State, exec (.ldVxK x) s = .next t ∧ t.run = .awaitingKey ∧ t.waitReg = x ∧ t.pc = s.pc + 2 ∧
      Frame { wait := true } s t) ∧
    ∀ op : Word, s.loaded = true → s.run = .running → fetch s = .ok op → decode s.cfg op = some (.ldVxK x) →
      stepReply s = .awaitingKey
end

