-- ==== Sys2Proof/Laws/Decode.lean ====
section
/-! SUPPORT. The fields of the words that the encoder builds, format by format, so that no proof about encodings goes back to bits. -/

namespace Sys2Proof

/-! ### The bits of the formats as numbers -/

theorem toNat_append_eq {n m : Nat} (a : BitVec n) (b : BitVec m) : (a ++ b).toNat = a.toNat * 2 ^ m + b.toNat := by
  rw [BitVec.toNat_append, Nat.shiftLeft_eq, Nat.mul_comm, ← Nat.two_pow_add_eq_or_of_lt b.isLt]

theorem toNat_encodeA (o : Nibble) (nnn : Addr) : (encodeA o nnn).toNat = o.toNat * 4096 + nnn.toNat :=
  toNat_append_eq o nnn

theorem toNat_encodeRB (o : Nibble) (x : Reg) (kk : Byte) :
    (encodeRB o x kk).toNat = o.toNat * 4096 + x.val * 256 + kk.toNat := by
  have h : (encodeRB o x kk).toNat = (o ++ (BitVec.ofFin x : Nibble)).toNat * 2 ^ 8 + kk.toNat := toNat_append_eq _ _
  have hx : (BitVec.ofFin x : Nibble).toNat = x.val := rfl
  rw [h, toNat_append_eq, hx]; omega

theorem toNat_encodeRRN (o : Nibble) (x y : Reg) (n : Nibble) :
    (encodeRRN o x y n).toNat = o.toNat * 4096 + x.val * 256 + y.val * 16 + n.toNat := by
  have h : (encodeRRN o x y n).toNat =
      (o ++ (BitVec.ofFin x : Nibble) ++ (BitVec.ofFin y : Nibble)).toNat * 2 ^ 4 + n.toNat := toNat_append_eq _ _
  have hx : (BitVec.ofFin x : Nibble).toNat = x.val := rfl
  have hy : (BitVec.ofFin y : Nibble).toNat = y.val := rfl
  rw [h, toNat_append_eq, toNat_append_eq, hx, hy]; omega

/-! ### The fields as numbers (R81) -/

theorem toNat_fieldN1 (op : Word) : (fieldN1 op).toNat = op.toNat / 4096 := by
  have := op.isLt
  simp only [fieldN1, BitVec.extractLsb'_toNat, Nat.shiftRight_eq_div_pow]
  omega

theorem val_fieldX (op : Word) : (fieldX op).val = op.toNat / 256 % 16 := by
  have h : (fieldX op).val = (op.extractLsb' 8 4).toNat := rfl
  rw [h]
  simp only [BitVec.extractLsb'_toNat, Nat.shiftRight_eq_div_pow]

theorem val_fieldY (op : Word) : (fieldY op).val = op.toNat / 16 % 16 := by
  have h : (fieldY op).val = (op.extractLsb' 4 4).toNat := rfl
  rw [h]
  simp only [BitVec.extractLsb'_toNat, Nat.shiftRight_eq_div_pow]

theorem toNat_fieldN (op : Word) : (fieldN op).toNat = op.toNat % 16 := by
  simp only [fieldN, BitVec.extractLsb'_toNat, Nat.shiftRight_eq_div_pow]
  omega

theorem toNat_fieldKK (op : Word) : (fieldKK op).toNat = op.toNat % 256 := by
  simp only [fieldKK, BitVec.extractLsb'_toNat, Nat.shiftRight_eq_div_pow]
  omega

theorem toNat_fieldNNN (op : Word) : (fieldNNN op).toNat = op.toNat % 4096 := by
  simp only [fieldNNN, BitVec.extractLsb'_toNat, Nat.shiftRight_eq_div_pow]
  omega

/-! ### The fields of an encoded word -/

@[simp] theorem fieldN1_encodeA (o : Nibble) (nnn : Addr) : fieldN1 (encodeA o nnn) = o := by
  have := nnn.isLt
  apply BitVec.eq_of_toNat_eq; rw [toNat_fieldN1, toNat_encodeA]; omega

@[simp] theorem fieldNNN_encodeA (o : Nibble) (nnn : Addr) : fieldNNN (encodeA o nnn) = nnn := by
  have := nnn.isLt
  apply BitVec.eq_of_toNat_eq; rw [toNat_fieldNNN, toNat_encodeA]; omega

@[simp] theorem fieldN1_encodeRB (o : Nibble) (x : Reg) (kk : Byte) : fieldN1 (encodeRB o x kk) = o := by
  have := kk.isLt
  apply BitVec.eq_of_toNat_eq; rw [toNat_fieldN1, toNat_encodeRB]; omega

@[simp] theorem fieldX_encodeRB (o : Nibble) (x : Reg) (kk : Byte) : fieldX (encodeRB o x kk) = x := by
  have := kk.isLt
  apply Fin.ext; rw [val_fieldX, toNat_encodeRB]; omega

@[simp] theorem fieldKK_encodeRB (o : Nibble) (x : Reg) (kk : Byte) : fieldKK (encodeRB o x kk) = kk := by
  have := kk.isLt
  apply BitVec.eq_of_toNat_eq; rw [toNat_fieldKK, toNat_encodeRB]; omega

@[simp] theorem fieldN1_encodeRRN (o : Nibble) (x y : Reg) (n : Nibble) : fieldN1 (encodeRRN o x y n) = o := by
  have := n.isLt
  apply BitVec.eq_of_toNat_eq; rw [toNat_fieldN1, toNat_encodeRRN]; omega

@[simp] theorem fieldX_encodeRRN (o : Nibble) (x y : Reg) (n : Nibble) : fieldX (encodeRRN o x y n) = x := by
  have := n.isLt
  apply Fin.ext; rw [val_fieldX, toNat_encodeRRN]; omega

@[simp] theorem fieldY_encodeRRN (o : Nibble) (x y : Reg) (n : Nibble) : fieldY (encodeRRN o x y n) = y := by
  have := n.isLt
  apply Fin.ext; rw [val_fieldY, toNat_encodeRRN]; omega

@[simp] theorem fieldN_encodeRRN (o : Nibble) (x y : Reg) (n : Nibble) : fieldN (encodeRRN o x y n) = n := by
  have := n.isLt
  apply BitVec.eq_of_toNat_eq; rw [toNat_fieldN, toNat_encodeRRN]; omega

/-! ### A word is built from its fields -/

theorem encodeA_of_fields (op : Word) : encodeA (fieldN1 op) (fieldNNN op) = op := by
  apply BitVec.eq_of_toNat_eq
  rw [toNat_encodeA, toNat_fieldN1, toNat_fieldNNN]; omega

theorem encodeRB_of_fields (op : Word) : encodeRB (fieldN1 op) (fieldX op) (fieldKK op) = op := by
  apply BitVec.eq_of_toNat_eq
  rw [toNat_encodeRB, toNat_fieldN1, val_fieldX, toNat_fieldKK]; omega

theorem encodeRRN_of_fields (op : Word) : encodeRRN (fieldN1 op) (fieldX op) (fieldY op) (fieldN op) = op := by
  apply BitVec.eq_of_toNat_eq
  rw [toNat_encodeRRN, toNat_fieldN1, val_fieldX, val_fieldY, toNat_fieldN]; omega

theorem wordOfBytes_high_low (op : Word) : wordOfBytes (highByte op) (lowByte op) = op := by
  have h1 := op.isLt
  apply BitVec.eq_of_toNat_eq
  have h : (wordOfBytes (highByte op) (lowByte op)).toNat = (highByte op).toNat * 2 ^ 8 + (lowByte op).toNat :=
    toNat_append_eq _ _
  rw [h]
  simp only [highByte, lowByte, BitVec.extractLsb'_toNat, Nat.shiftRight_eq_div_pow]
  omega

end Sys2Proof
end

