-- ==== Sys2Proof/Laws/State.lean ====
section
/-! SUPPORT. One lemma per field per update of the state, so that no proof unfolds a record update. -/

namespace Sys2Proof.Machine

/-! ### Writing a register -/

@[simp] theorem setReg_i (s : State) (r : Reg) (b : Byte) : (s.setReg r b).i = s.i := rfl
@[simp] theorem setReg_pc (s : State) (r : Reg) (b : Byte) : (s.setReg r b).pc = s.pc := rfl
@[simp] theorem setReg_stack (s : State) (r : Reg) (b : Byte) : (s.setReg r b).stack = s.stack := rfl
@[simp] theorem setReg_sp (s : State) (r : Reg) (b : Byte) : (s.setReg r b).sp = s.sp := rfl
@[simp] theorem setReg_dt (s : State) (r : Reg) (b : Byte) : (s.setReg r b).dt = s.dt := rfl
@[simp] theorem setReg_st (s : State) (r : Reg) (b : Byte) : (s.setReg r b).st = s.st := rfl
@[simp] theorem setReg_disp (s : State) (r : Reg) (b : Byte) : (s.setReg r b).disp = s.disp := rfl
@[simp] theorem setReg_key (s : State) (r : Reg) (b : Byte) : (s.setReg r b).key = s.key := rfl
@[simp] theorem setReg_run (s : State) (r : Reg) (b : Byte) : (s.setReg r b).run = s.run := rfl
@[simp] theorem setReg_waitReg (s : State) (r : Reg) (b : Byte) : (s.setReg r b).waitReg = s.waitReg := rfl
@[simp] theorem setReg_fault (s : State) (r : Reg) (b : Byte) : (s.setReg r b).fault = s.fault := rfl
@[simp] theorem setReg_loaded (s : State) (r : Reg) (b : Byte) : (s.setReg r b).loaded = s.loaded := rfl
@[simp] theorem setReg_mem (s : State) (r : Reg) (b : Byte) : (s.setReg r b).mem = s.mem := rfl
@[simp] theorem setReg_cfg (s : State) (r : Reg) (b : Byte) : (s.setReg r b).cfg = s.cfg := rfl
@[simp] theorem setReg_draws (s : State) (r : Reg) (b : Byte) : (s.setReg r b).draws = s.draws := rfl

/-! ### `setPc` -/

@[simp] theorem setPc_v (s : State) (a : Word) : (s.setPc a).v = s.v := rfl
@[simp] theorem setPc_i (s : State) (a : Word) : (s.setPc a).i = s.i := rfl
@[simp] theorem setPc_pc (s : State) (a : Word) : (s.setPc a).pc = a := rfl
@[simp] theorem setPc_stack (s : State) (a : Word) : (s.setPc a).stack = s.stack := rfl
@[simp] theorem setPc_sp (s : State) (a : Word) : (s.setPc a).sp = s.sp := rfl
@[simp] theorem setPc_dt (s : State) (a : Word) : (s.setPc a).dt = s.dt := rfl
@[simp] theorem setPc_st (s : State) (a : Word) : (s.setPc a).st = s.st := rfl
@[simp] theorem setPc_disp (s : State) (a : Word) : (s.setPc a).disp = s.disp := rfl
@[simp] theorem setPc_key (s : State) (a : Word) : (s.setPc a).key = s.key := rfl
@[simp] theorem setPc_run (s : State) (a : Word) : (s.setPc a).run = s.run := rfl
@[simp] theorem setPc_waitReg (s : State) (a : Word) : (s.setPc a).waitReg = s.waitReg := rfl
@[simp] theorem setPc_fault (s : State) (a : Word) : (s.setPc a).fault = s.fault := rfl
@[simp] theorem setPc_loaded (s : State) (a : Word) : (s.setPc a).loaded = s.loaded := rfl
@[simp] theorem setPc_mem (s : State) (a : Word) : (s.setPc a).mem = s.mem := rfl
@[simp] theorem setPc_cfg (s : State) (a : Word) : (s.setPc a).cfg = s.cfg := rfl
@[simp] theorem setPc_draws (s : State) (a : Word) : (s.setPc a).draws = s.draws := rfl

/-! ### `setIndex` -/

@[simp] theorem setIndex_v (s : State) (w : Word) : (s.setIndex w).v = s.v := rfl
@[simp] theorem setIndex_i (s : State) (w : Word) : (s.setIndex w).i = w := rfl
@[simp] theorem setIndex_pc (s : State) (w : Word) : (s.setIndex w).pc = s.pc := rfl
@[simp] theorem setIndex_stack (s : State) (w : Word) : (s.setIndex w).stack = s.stack := rfl
@[simp] theorem setIndex_sp (s : State) (w : Word) : (s.setIndex w).sp = s.sp := rfl
@[simp] theorem setIndex_dt (s : State) (w : Word) : (s.setIndex w).dt = s.dt := rfl
@[simp] theorem setIndex_st (s : State) (w : Word) : (s.setIndex w).st = s.st := rfl
@[simp] theorem setIndex_disp (s : State) (w : Word) : (s.setIndex w).disp = s.disp := rfl
@[simp] theorem setIndex_key (s : State) (w : Word) : (s.setIndex w).key = s.key := rfl
@[simp] theorem setIndex_run (s : State) (w : Word) : (s.setIndex w).run = s.run := rfl
@[simp] theorem setIndex_waitReg (s : State) (w : Word) : (s.setIndex w).waitReg = s.waitReg := rfl
@[simp] theorem setIndex_fault (s : State) (w : Word) : (s.setIndex w).fault = s.fault := rfl
@[simp] theorem setIndex_loaded (s : State) (w : Word) : (s.setIndex w).loaded = s.loaded := rfl
@[simp] theorem setIndex_mem (s : State) (w : Word) : (s.setIndex w).mem = s.mem := rfl
@[simp] theorem setIndex_cfg (s : State) (w : Word) : (s.setIndex w).cfg = s.cfg := rfl
@[simp] theorem setIndex_draws (s : State) (w : Word) : (s.setIndex w).draws = s.draws := rfl

/-! ### `setDelay` -/

@[simp] theorem setDelay_v (s : State) (b : Byte) : (s.setDelay b).v = s.v := rfl
@[simp] theorem setDelay_i (s : State) (b : Byte) : (s.setDelay b).i = s.i := rfl
@[simp] theorem setDelay_pc (s : State) (b : Byte) : (s.setDelay b).pc = s.pc := rfl
@[simp] theorem setDelay_stack (s : State) (b : Byte) : (s.setDelay b).stack = s.stack := rfl
@[simp] theorem setDelay_sp (s : State) (b : Byte) : (s.setDelay b).sp = s.sp := rfl
@[simp] theorem setDelay_dt (s : State) (b : Byte) : (s.setDelay b).dt = b := rfl
@[simp] theorem setDelay_st (s : State) (b : Byte) : (s.setDelay b).st = s.st := rfl
@[simp] theorem setDelay_disp (s : State) (b : Byte) : (s.setDelay b).disp = s.disp := rfl
@[simp] theorem setDelay_key (s : State) (b : Byte) : (s.setDelay b).key = s.key := rfl
@[simp] theorem setDelay_run (s : State) (b : Byte) : (s.setDelay b).run = s.run := rfl
@[simp] theorem setDelay_waitReg (s : State) (b : Byte) : (s.setDelay b).waitReg = s.waitReg := rfl
@[simp] theorem setDelay_fault (s : State) (b : Byte) : (s.setDelay b).fault = s.fault := rfl
@[simp] theorem setDelay_loaded (s : State) (b : Byte) : (s.setDelay b).loaded = s.loaded := rfl
@[simp] theorem setDelay_mem (s : State) (b : Byte) : (s.setDelay b).mem = s.mem := rfl
@[simp] theorem setDelay_cfg (s : State) (b : Byte) : (s.setDelay b).cfg = s.cfg := rfl
@[simp] theorem setDelay_draws (s : State) (b : Byte) : (s.setDelay b).draws = s.draws := rfl

/-! ### `setSound` -/

@[simp] theorem setSound_v (s : State) (b : Byte) : (s.setSound b).v = s.v := rfl
@[simp] theorem setSound_i (s : State) (b : Byte) : (s.setSound b).i = s.i := rfl
@[simp] theorem setSound_pc (s : State) (b : Byte) : (s.setSound b).pc = s.pc := rfl
@[simp] theorem setSound_stack (s : State) (b : Byte) : (s.setSound b).stack = s.stack := rfl
@[simp] theorem setSound_sp (s : State) (b : Byte) : (s.setSound b).sp = s.sp := rfl
@[simp] theorem setSound_dt (s : State) (b : Byte) : (s.setSound b).dt = s.dt := rfl
@[simp] theorem setSound_st (s : State) (b : Byte) : (s.setSound b).st = b := rfl
@[simp] theorem setSound_disp (s : State) (b : Byte) : (s.setSound b).disp = s.disp := rfl
@[simp] theorem setSound_key (s : State) (b : Byte) : (s.setSound b).key = s.key := rfl
@[simp] theorem setSound_run (s : State) (b : Byte) : (s.setSound b).run = s.run := rfl
@[simp] theorem setSound_waitReg (s : State) (b : Byte) : (s.setSound b).waitReg = s.waitReg := rfl
@[simp] theorem setSound_fault (s : State) (b : Byte) : (s.setSound b).fault = s.fault := rfl
@[simp] theorem setSound_loaded (s : State) (b : Byte) : (s.setSound b).loaded = s.loaded := rfl
@[simp] theorem setSound_mem (s : State) (b : Byte) : (s.setSound b).mem = s.mem := rfl
@[simp] theorem setSound_cfg (s : State) (b : Byte) : (s.setSound b).cfg = s.cfg := rfl
@[simp] theorem setSound_draws (s : State) (b : Byte) : (s.setSound b).draws = s.draws := rfl

/-! ### `setDisplay` -/

@[simp] theorem setDisplay_v (s : State) (d : Display) : (s.setDisplay d).v = s.v := rfl
@[simp] theorem setDisplay_i (s : State) (d : Display) : (s.setDisplay d).i = s.i := rfl
@[simp] theorem setDisplay_pc (s : State) (d : Display) : (s.setDisplay d).pc = s.pc := rfl
@[simp] theorem setDisplay_stack (s : State) (d : Display) : (s.setDisplay d).stack = s.stack := rfl
@[simp] theorem setDisplay_sp (s : State) (d : Display) : (s.setDisplay d).sp = s.sp := rfl
@[simp] theorem setDisplay_dt (s : State) (d : Display) : (s.setDisplay d).dt = s.dt := rfl
@[simp] theorem setDisplay_st (s : State) (d : Display) : (s.setDisplay d).st = s.st := rfl
@[simp] theorem setDisplay_disp (s : State) (d : Display) : (s.setDisplay d).disp = d := rfl
@[simp] theorem setDisplay_key (s : State) (d : Display) : (s.setDisplay d).key = s.key := rfl
@[simp] theorem setDisplay_run (s : State) (d : Display) : (s.setDisplay d).run = s.run := rfl
@[simp] theorem setDisplay_waitReg (s : State) (d : Display) : (s.setDisplay d).waitReg = s.waitReg := rfl
@[simp] theorem setDisplay_fault (s : State) (d : Display) : (s.setDisplay d).fault = s.fault := rfl
@[simp] theorem setDisplay_loaded (s : State) (d : Display) : (s.setDisplay d).loaded = s.loaded := rfl
@[simp] theorem setDisplay_mem (s : State) (d : Display) : (s.setDisplay d).mem = s.mem := rfl
@[simp] theorem setDisplay_cfg (s : State) (d : Display) : (s.setDisplay d).cfg = s.cfg := rfl
@[simp] theorem setDisplay_draws (s : State) (d : Display) : (s.setDisplay d).draws = s.draws := rfl

/-! ### `setStack` -/

@[simp] theorem setStack_v (s : State) (e : Vector Word 16) (n : Fin 17) : (s.setStack e n).v = s.v := rfl
@[simp] theorem setStack_i (s : State) (e : Vector Word 16) (n : Fin 17) : (s.setStack e n).i = s.i := rfl
@[simp] theorem setStack_pc (s : State) (e : Vector Word 16) (n : Fin 17) : (s.setStack e n).pc = s.pc := rfl
@[simp] theorem setStack_stack (s : State) (e : Vector Word 16) (n : Fin 17) : (s.setStack e n).stack = e := rfl
@[simp] theorem setStack_sp (s : State) (e : Vector Word 16) (n : Fin 17) : (s.setStack e n).sp = n := rfl
@[simp] theorem setStack_dt (s : State) (e : Vector Word 16) (n : Fin 17) : (s.setStack e n).dt = s.dt := rfl
@[simp] theorem setStack_st (s : State) (e : Vector Word 16) (n : Fin 17) : (s.setStack e n).st = s.st := rfl
@[simp] theorem setStack_disp (s : State) (e : Vector Word 16) (n : Fin 17) : (s.setStack e n).disp = s.disp := rfl
@[simp] theorem setStack_key (s : State) (e : Vector Word 16) (n : Fin 17) : (s.setStack e n).key = s.key := rfl
@[simp] theorem setStack_run (s : State) (e : Vector Word 16) (n : Fin 17) : (s.setStack e n).run = s.run := rfl
@[simp] theorem setStack_waitReg (s : State) (e : Vector Word 16) (n : Fin 17) : (s.setStack e n).waitReg = s.waitReg := rfl
@[simp] theorem setStack_fault (s : State) (e : Vector Word 16) (n : Fin 17) : (s.setStack e n).fault = s.fault := rfl
@[simp] theorem setStack_loaded (s : State) (e : Vector Word 16) (n : Fin 17) : (s.setStack e n).loaded = s.loaded := rfl
@[simp] theorem setStack_mem (s : State) (e : Vector Word 16) (n : Fin 17) : (s.setStack e n).mem = s.mem := rfl
@[simp] theorem setStack_cfg (s : State) (e : Vector Word 16) (n : Fin 17) : (s.setStack e n).cfg = s.cfg := rfl
@[simp] theorem setStack_draws (s : State) (e : Vector Word 16) (n : Fin 17) : (s.setStack e n).draws = s.draws := rfl

/-! ### `setRun` -/

@[simp] theorem setRun_v (s : State) (r : RunState) : (s.setRun r).v = s.v := rfl
@[simp] theorem setRun_i (s : State) (r : RunState) : (s.setRun r).i = s.i := rfl
@[simp] theorem setRun_pc (s : State) (r : RunState) : (s.setRun r).pc = s.pc := rfl
@[simp] theorem setRun_stack (s : State) (r : RunState) : (s.setRun r).stack = s.stack := rfl
@[simp] theorem setRun_sp (s : State) (r : RunState) : (s.setRun r).sp = s.sp := rfl
@[simp] theorem setRun_dt (s : State) (r : RunState) : (s.setRun r).dt = s.dt := rfl
@[simp] theorem setRun_st (s : State) (r : RunState) : (s.setRun r).st = s.st := rfl
@[simp] theorem setRun_disp (s : State) (r : RunState) : (s.setRun r).disp = s.disp := rfl
@[simp] theorem setRun_key (s : State) (r : RunState) : (s.setRun r).key = s.key := rfl
@[simp] theorem setRun_run (s : State) (r : RunState) : (s.setRun r).run = r := rfl
@[simp] theorem setRun_waitReg (s : State) (r : RunState) : (s.setRun r).waitReg = s.waitReg := rfl
@[simp] theorem setRun_fault (s : State) (r : RunState) : (s.setRun r).fault = s.fault := rfl
@[simp] theorem setRun_loaded (s : State) (r : RunState) : (s.setRun r).loaded = s.loaded := rfl
@[simp] theorem setRun_mem (s : State) (r : RunState) : (s.setRun r).mem = s.mem := rfl
@[simp] theorem setRun_cfg (s : State) (r : RunState) : (s.setRun r).cfg = s.cfg := rfl
@[simp] theorem setRun_draws (s : State) (r : RunState) : (s.setRun r).draws = s.draws := rfl

/-! ### `setWaitReg` -/

@[simp] theorem setWaitReg_v (s : State) (x : Reg) : (s.setWaitReg x).v = s.v := rfl
@[simp] theorem setWaitReg_i (s : State) (x : Reg) : (s.setWaitReg x).i = s.i := rfl
@[simp] theorem setWaitReg_pc (s : State) (x : Reg) : (s.setWaitReg x).pc = s.pc := rfl
@[simp] theorem setWaitReg_stack (s : State) (x : Reg) : (s.setWaitReg x).stack = s.stack := rfl
@[simp] theorem setWaitReg_sp (s : State) (x : Reg) : (s.setWaitReg x).sp = s.sp := rfl
@[simp] theorem setWaitReg_dt (s : State) (x : Reg) : (s.setWaitReg x).dt = s.dt := rfl
@[simp] theorem setWaitReg_st (s : State) (x : Reg) : (s.setWaitReg x).st = s.st := rfl
@[simp] theorem setWaitReg_disp (s : State) (x : Reg) : (s.setWaitReg x).disp = s.disp := rfl
@[simp] theorem setWaitReg_key (s : State) (x : Reg) : (s.setWaitReg x).key = s.key := rfl
@[simp] theorem setWaitReg_run (s : State) (x : Reg) : (s.setWaitReg x).run = s.run := rfl
@[simp] theorem setWaitReg_waitReg (s : State) (x : Reg) : (s.setWaitReg x).waitReg = x := rfl
@[simp] theorem setWaitReg_fault (s : State) (x : Reg) : (s.setWaitReg x).fault = s.fault := rfl
@[simp] theorem setWaitReg_loaded (s : State) (x : Reg) : (s.setWaitReg x).loaded = s.loaded := rfl
@[simp] theorem setWaitReg_mem (s : State) (x : Reg) : (s.setWaitReg x).mem = s.mem := rfl
@[simp] theorem setWaitReg_cfg (s : State) (x : Reg) : (s.setWaitReg x).cfg = s.cfg := rfl
@[simp] theorem setWaitReg_draws (s : State) (x : Reg) : (s.setWaitReg x).draws = s.draws := rfl

/-! ### `countDraw` -/

@[simp] theorem countDraw_v (s : State) : (s.countDraw).v = s.v := rfl
@[simp] theorem countDraw_i (s : State) : (s.countDraw).i = s.i := rfl
@[simp] theorem countDraw_pc (s : State) : (s.countDraw).pc = s.pc := rfl
@[simp] theorem countDraw_stack (s : State) : (s.countDraw).stack = s.stack := rfl
@[simp] theorem countDraw_sp (s : State) : (s.countDraw).sp = s.sp := rfl
@[simp] theorem countDraw_dt (s : State) : (s.countDraw).dt = s.dt := rfl
@[simp] theorem countDraw_st (s : State) : (s.countDraw).st = s.st := rfl
@[simp] theorem countDraw_disp (s : State) : (s.countDraw).disp = s.disp := rfl
@[simp] theorem countDraw_key (s : State) : (s.countDraw).key = s.key := rfl
@[simp] theorem countDraw_run (s : State) : (s.countDraw).run = s.run := rfl
@[simp] theorem countDraw_waitReg (s : State) : (s.countDraw).waitReg = s.waitReg := rfl
@[simp] theorem countDraw_fault (s : State) : (s.countDraw).fault = s.fault := rfl
@[simp] theorem countDraw_loaded (s : State) : (s.countDraw).loaded = s.loaded := rfl
@[simp] theorem countDraw_mem (s : State) : (s.countDraw).mem = s.mem := rfl
@[simp] theorem countDraw_cfg (s : State) : (s.countDraw).cfg = s.cfg := rfl
@[simp] theorem countDraw_draws (s : State) : (s.countDraw).draws = s.draws + 1 := rfl

/-! ### Advancing the program counter -/

@[simp] theorem advance_v (s : State) : (s.advance).v = s.v := rfl
@[simp] theorem advance_i (s : State) : (s.advance).i = s.i := rfl
@[simp] theorem advance_stack (s : State) : (s.advance).stack = s.stack := rfl
@[simp] theorem advance_sp (s : State) : (s.advance).sp = s.sp := rfl
@[simp] theorem advance_dt (s : State) : (s.advance).dt = s.dt := rfl
@[simp] theorem advance_st (s : State) : (s.advance).st = s.st := rfl
@[simp] theorem advance_disp (s : State) : (s.advance).disp = s.disp := rfl
@[simp] theorem advance_key (s : State) : (s.advance).key = s.key := rfl
@[simp] theorem advance_run (s : State) : (s.advance).run = s.run := rfl
@[simp] theorem advance_waitReg (s : State) : (s.advance).waitReg = s.waitReg := rfl
@[simp] theorem advance_fault (s : State) : (s.advance).fault = s.fault := rfl
@[simp] theorem advance_loaded (s : State) : (s.advance).loaded = s.loaded := rfl
@[simp] theorem advance_mem (s : State) : (s.advance).mem = s.mem := rfl
@[simp] theorem advance_cfg (s : State) : (s.advance).cfg = s.cfg := rfl
@[simp] theorem advance_draws (s : State) : (s.advance).draws = s.draws := rfl
@[simp] theorem advance_pc (s : State) : s.advance.pc = s.pc + 2 := rfl

/-! ### Writing a flag -/

@[simp] theorem setFlag_i (s : State) (c : Bool) : (s.setFlag c).i = s.i := rfl
@[simp] theorem setFlag_pc (s : State) (c : Bool) : (s.setFlag c).pc = s.pc := rfl
@[simp] theorem setFlag_stack (s : State) (c : Bool) : (s.setFlag c).stack = s.stack := rfl
@[simp] theorem setFlag_sp (s : State) (c : Bool) : (s.setFlag c).sp = s.sp := rfl
@[simp] theorem setFlag_dt (s : State) (c : Bool) : (s.setFlag c).dt = s.dt := rfl
@[simp] theorem setFlag_st (s : State) (c : Bool) : (s.setFlag c).st = s.st := rfl
@[simp] theorem setFlag_disp (s : State) (c : Bool) : (s.setFlag c).disp = s.disp := rfl
@[simp] theorem setFlag_key (s : State) (c : Bool) : (s.setFlag c).key = s.key := rfl
@[simp] theorem setFlag_run (s : State) (c : Bool) : (s.setFlag c).run = s.run := rfl
@[simp] theorem setFlag_waitReg (s : State) (c : Bool) : (s.setFlag c).waitReg = s.waitReg := rfl
@[simp] theorem setFlag_fault (s : State) (c : Bool) : (s.setFlag c).fault = s.fault := rfl
@[simp] theorem setFlag_loaded (s : State) (c : Bool) : (s.setFlag c).loaded = s.loaded := rfl
@[simp] theorem setFlag_mem (s : State) (c : Bool) : (s.setFlag c).mem = s.mem := rfl
@[simp] theorem setFlag_cfg (s : State) (c : Bool) : (s.setFlag c).cfg = s.cfg := rfl
@[simp] theorem setFlag_draws (s : State) (c : Bool) : (s.setFlag c).draws = s.draws := rfl

/-! ### The flag write of the logic instructions -/

@[simp] theorem setLogicFlag_i (s : State) : (s.setLogicFlag).i = s.i := by
  unfold State.setLogicFlag; split <;> rfl
@[simp] theorem setLogicFlag_pc (s : State) : (s.setLogicFlag).pc = s.pc := by
  unfold State.setLogicFlag; split <;> rfl
@[simp] theorem setLogicFlag_stack (s : State) : (s.setLogicFlag).stack = s.stack := by
  unfold State.setLogicFlag; split <;> rfl
@[simp] theorem setLogicFlag_sp (s : State) : (s.setLogicFlag).sp = s.sp := by
  unfold State.setLogicFlag; split <;> rfl
@[simp] theorem setLogicFlag_dt (s : State) : (s.setLogicFlag).dt = s.dt := by
  unfold State.setLogicFlag; split <;> rfl
@[simp] theorem setLogicFlag_st (s : State) : (s.setLogicFlag).st = s.st := by
  unfold State.setLogicFlag; split <;> rfl
@[simp] theorem setLogicFlag_disp (s : State) : (s.setLogicFlag).disp = s.disp := by
  unfold State.setLogicFlag; split <;> rfl
@[simp] theorem setLogicFlag_key (s : State) : (s.setLogicFlag).key = s.key := by
  unfold State.setLogicFlag; split <;> rfl
@[simp] theorem setLogicFlag_run (s : State) : (s.setLogicFlag).run = s.run := by
  unfold State.setLogicFlag; split <;> rfl
@[simp] theorem setLogicFlag_waitReg (s : State) : (s.setLogicFlag).waitReg = s.waitReg := by
  unfold State.setLogicFlag; split <;> rfl
@[simp] theorem setLogicFlag_fault (s : State) : (s.setLogicFlag).fault = s.fault := by
  unfold State.setLogicFlag; split <;> rfl
@[simp] theorem setLogicFlag_loaded (s : State) : (s.setLogicFlag).loaded = s.loaded := by
  unfold State.setLogicFlag; split <;> rfl
@[simp] theorem setLogicFlag_mem (s : State) : (s.setLogicFlag).mem = s.mem := by
  unfold State.setLogicFlag; split <;> rfl
@[simp] theorem setLogicFlag_cfg (s : State) : (s.setLogicFlag).cfg = s.cfg := by
  unfold State.setLogicFlag; split <;> rfl
@[simp] theorem setLogicFlag_draws (s : State) : (s.setLogicFlag).draws = s.draws := by
  unfold State.setLogicFlag; split <;> rfl

/-! ### The flag write of Fx1E -/

@[simp] theorem setIndexFlag_i (s : State) (c : Bool) : (s.setIndexFlag c).i = s.i := by
  unfold State.setIndexFlag; split <;> rfl
@[simp] theorem setIndexFlag_pc (s : State) (c : Bool) : (s.setIndexFlag c).pc = s.pc := by
  unfold State.setIndexFlag; split <;> rfl
@[simp] theorem setIndexFlag_stack (s : State) (c : Bool) : (s.setIndexFlag c).stack = s.stack := by
  unfold State.setIndexFlag; split <;> rfl
@[simp] theorem setIndexFlag_sp (s : State) (c : Bool) : (s.setIndexFlag c).sp = s.sp := by
  unfold State.setIndexFlag; split <;> rfl
@[simp] theorem setIndexFlag_dt (s : State) (c : Bool) : (s.setIndexFlag c).dt = s.dt := by
  unfold State.setIndexFlag; split <;> rfl
@[simp] theorem setIndexFlag_st (s : State) (c : Bool) : (s.setIndexFlag c).st = s.st := by
  unfold State.setIndexFlag; split <;> rfl
@[simp] theorem setIndexFlag_disp (s : State) (c : Bool) : (s.setIndexFlag c).disp = s.disp := by
  unfold State.setIndexFlag; split <;> rfl
@[simp] theorem setIndexFlag_key (s : State) (c : Bool) : (s.setIndexFlag c).key = s.key := by
  unfold State.setIndexFlag; split <;> rfl
@[simp] theorem setIndexFlag_run (s : State) (c : Bool) : (s.setIndexFlag c).run = s.run := by
  unfold State.setIndexFlag; split <;> rfl
@[simp] theorem setIndexFlag_waitReg (s : State) (c : Bool) : (s.setIndexFlag c).waitReg = s.waitReg := by
  unfold State.setIndexFlag; split <;> rfl
@[simp] theorem setIndexFlag_fault (s : State) (c : Bool) : (s.setIndexFlag c).fault = s.fault := by
  unfold State.setIndexFlag; split <;> rfl
@[simp] theorem setIndexFlag_loaded (s : State) (c : Bool) : (s.setIndexFlag c).loaded = s.loaded := by
  unfold State.setIndexFlag; split <;> rfl
@[simp] theorem setIndexFlag_mem (s : State) (c : Bool) : (s.setIndexFlag c).mem = s.mem := by
  unfold State.setIndexFlag; split <;> rfl
@[simp] theorem setIndexFlag_cfg (s : State) (c : Bool) : (s.setIndexFlag c).cfg = s.cfg := by
  unfold State.setIndexFlag; split <;> rfl
@[simp] theorem setIndexFlag_draws (s : State) (c : Bool) : (s.setIndexFlag c).draws = s.draws := by
  unfold State.setIndexFlag; split <;> rfl

/-! ### Writing a byte of memory -/

@[simp] theorem writeByte_v (s : State) (a : Nat) (b : Byte) : (s.writeByte a b).v = s.v := rfl
@[simp] theorem writeByte_i (s : State) (a : Nat) (b : Byte) : (s.writeByte a b).i = s.i := rfl
@[simp] theorem writeByte_pc (s : State) (a : Nat) (b : Byte) : (s.writeByte a b).pc = s.pc := rfl
@[simp] theorem writeByte_stack (s : State) (a : Nat) (b : Byte) : (s.writeByte a b).stack = s.stack := rfl
@[simp] theorem writeByte_sp (s : State) (a : Nat) (b : Byte) : (s.writeByte a b).sp = s.sp := rfl
@[simp] theorem writeByte_dt (s : State) (a : Nat) (b : Byte) : (s.writeByte a b).dt = s.dt := rfl
@[simp] theorem writeByte_st (s : State) (a : Nat) (b : Byte) : (s.writeByte a b).st = s.st := rfl
@[simp] theorem writeByte_disp (s : State) (a : Nat) (b : Byte) : (s.writeByte a b).disp = s.disp := rfl
@[simp] theorem writeByte_key (s : State) (a : Nat) (b : Byte) : (s.writeByte a b).key = s.key := rfl
@[simp] theorem writeByte_run (s : State) (a : Nat) (b : Byte) : (s.writeByte a b).run = s.run := rfl
@[simp] theorem writeByte_waitReg (s : State) (a : Nat) (b : Byte) : (s.writeByte a b).waitReg = s.waitReg := rfl
@[simp] theorem writeByte_fault (s : State) (a : Nat) (b : Byte) : (s.writeByte a b).fault = s.fault := rfl
@[simp] theorem writeByte_loaded (s : State) (a : Nat) (b : Byte) : (s.writeByte a b).loaded = s.loaded := rfl
@[simp] theorem writeByte_cfg (s : State) (a : Nat) (b : Byte) : (s.writeByte a b).cfg = s.cfg := rfl
@[simp] theorem writeByte_draws (s : State) (a : Nat) (b : Byte) : (s.writeByte a b).draws = s.draws := rfl

/-! ### Taking a fatal error -/

@[simp] theorem raiseFault_v (s : State) (e : Fault) : (raiseFault e s).v = s.v := rfl
@[simp] theorem raiseFault_i (s : State) (e : Fault) : (raiseFault e s).i = s.i := rfl
@[simp] theorem raiseFault_pc (s : State) (e : Fault) : (raiseFault e s).pc = s.pc := rfl
@[simp] theorem raiseFault_stack (s : State) (e : Fault) : (raiseFault e s).stack = s.stack := rfl
@[simp] theorem raiseFault_sp (s : State) (e : Fault) : (raiseFault e s).sp = s.sp := rfl
@[simp] theorem raiseFault_dt (s : State) (e : Fault) : (raiseFault e s).dt = s.dt := rfl
@[simp] theorem raiseFault_st (s : State) (e : Fault) : (raiseFault e s).st = s.st := rfl
@[simp] theorem raiseFault_disp (s : State) (e : Fault) : (raiseFault e s).disp = s.disp := rfl
@[simp] theorem raiseFault_key (s : State) (e : Fault) : (raiseFault e s).key = s.key := rfl
@[simp] theorem raiseFault_run (s : State) (e : Fault) : (raiseFault e s).run = .halted := rfl
@[simp] theorem raiseFault_waitReg (s : State) (e : Fault) : (raiseFault e s).waitReg = s.waitReg := rfl
@[simp] theorem raiseFault_fault (s : State) (e : Fault) : (raiseFault e s).fault = some e := rfl
@[simp] theorem raiseFault_loaded (s : State) (e : Fault) : (raiseFault e s).loaded = s.loaded := rfl
@[simp] theorem raiseFault_mem (s : State) (e : Fault) : (raiseFault e s).mem = s.mem := rfl
@[simp] theorem raiseFault_cfg (s : State) (e : Fault) : (raiseFault e s).cfg = s.cfg := rfl
@[simp] theorem raiseFault_draws (s : State) (e : Fault) : (raiseFault e s).draws = s.draws := rfl

/-! ### Skipping -/

@[simp] theorem skipIf_v (s : State) (c : Bool) : (skipIf c s).v = s.v := by
  cases c <;> rfl
@[simp] theorem skipIf_i (s : State) (c : Bool) : (skipIf c s).i = s.i := by
  cases c <;> rfl
@[simp] theorem skipIf_stack (s : State) (c : Bool) : (skipIf c s).stack = s.stack := by
  cases c <;> rfl
@[simp] theorem skipIf_sp (s : State) (c : Bool) : (skipIf c s).sp = s.sp := by
  cases c <;> rfl
@[simp] theorem skipIf_dt (s : State) (c : Bool) : (skipIf c s).dt = s.dt := by
  cases c <;> rfl
@[simp] theorem skipIf_st (s : State) (c : Bool) : (skipIf c s).st = s.st := by
  cases c <;> rfl
@[simp] theorem skipIf_disp (s : State) (c : Bool) : (skipIf c s).disp = s.disp := by
  cases c <;> rfl
@[simp] theorem skipIf_key (s : State) (c : Bool) : (skipIf c s).key = s.key := by
  cases c <;> rfl
@[simp] theorem skipIf_run (s : State) (c : Bool) : (skipIf c s).run = s.run := by
  cases c <;> rfl
@[simp] theorem skipIf_waitReg (s : State) (c : Bool) : (skipIf c s).waitReg = s.waitReg := by
  cases c <;> rfl
@[simp] theorem skipIf_fault (s : State) (c : Bool) : (skipIf c s).fault = s.fault := by
  cases c <;> rfl
@[simp] theorem skipIf_loaded (s : State) (c : Bool) : (skipIf c s).loaded = s.loaded := by
  cases c <;> rfl
@[simp] theorem skipIf_mem (s : State) (c : Bool) : (skipIf c s).mem = s.mem := by
  cases c <;> rfl
@[simp] theorem skipIf_cfg (s : State) (c : Bool) : (skipIf c s).cfg = s.cfg := by
  cases c <;> rfl
@[simp] theorem skipIf_draws (s : State) (c : Bool) : (skipIf c s).draws = s.draws := by
  cases c <;> rfl

/-! ### Reset -/

@[simp] theorem resetMachine_v (s : State) : (resetMachine s).v = Vector.replicate 16 0 := rfl
@[simp] theorem resetMachine_i (s : State) : (resetMachine s).i = 0 := rfl
@[simp] theorem resetMachine_pc (s : State) : (resetMachine s).pc = 0x200 := rfl
@[simp] theorem resetMachine_stack (s : State) : (resetMachine s).stack = Vector.replicate 16 0 := rfl
@[simp] theorem resetMachine_sp (s : State) : (resetMachine s).sp = 0 := rfl
@[simp] theorem resetMachine_dt (s : State) : (resetMachine s).dt = 0 := rfl
@[simp] theorem resetMachine_st (s : State) : (resetMachine s).st = 0 := rfl
@[simp] theorem resetMachine_disp (s : State) : (resetMachine s).disp = Vector.replicate 64 (Vector.replicate 32 false) := rfl
@[simp] theorem resetMachine_key (s : State) : (resetMachine s).key = Vector.replicate 16 false := rfl
@[simp] theorem resetMachine_run (s : State) : (resetMachine s).run = .running := rfl
@[simp] theorem resetMachine_waitReg (s : State) : (resetMachine s).waitReg = 0 := rfl
@[simp] theorem resetMachine_fault (s : State) : (resetMachine s).fault = none := rfl
@[simp] theorem resetMachine_loaded (s : State) : (resetMachine s).loaded = false := rfl
@[simp] theorem resetMachine_mem (s : State) : (resetMachine s).mem = [] := rfl
@[simp] theorem resetMachine_cfg (s : State) : (resetMachine s).cfg = s.cfg := rfl
@[simp] theorem resetMachine_draws (s : State) : (resetMachine s).draws = s.draws := rfl

/-! ### Loading registers in turn -/

@[simp] theorem setRegsFrom_i (s : State) (k : Nat) (bs : List Byte) : (s.setRegsFrom k bs).i = s.i := by
  induction bs generalizing s k with
  | nil => rfl
  | cons b bs ih => rw [State.setRegsFrom, ih]; split <;> rfl
@[simp] theorem setRegsFrom_pc (s : State) (k : Nat) (bs : List Byte) : (s.setRegsFrom k bs).pc = s.pc := by
  induction bs generalizing s k with
  | nil => rfl
  | cons b bs ih => rw [State.setRegsFrom, ih]; split <;> rfl
@[simp] theorem setRegsFrom_stack (s : State) (k : Nat) (bs : List Byte) : (s.setRegsFrom k bs).stack = s.stack := by
  induction bs generalizing s k with
  | nil => rfl
  | cons b bs ih => rw [State.setRegsFrom, ih]; split <;> rfl
@[simp] theorem setRegsFrom_sp (s : State) (k : Nat) (bs : List Byte) : (s.setRegsFrom k bs).sp = s.sp := by
  induction bs generalizing s k with
  | nil => rfl
  | cons b bs ih => rw [State.setRegsFrom, ih]; split <;> rfl
@[simp] theorem setRegsFrom_dt (s : State) (k : Nat) (bs : List Byte) : (s.setRegsFrom k bs).dt = s.dt := by
  induction bs generalizing s k with
  | nil => rfl
  | cons b bs ih => rw [State.setRegsFrom, ih]; split <;> rfl
@[simp] theorem setRegsFrom_st (s : State) (k : Nat) (bs : List Byte) : (s.setRegsFrom k bs).st = s.st := by
  induction bs generalizing s k with
  | nil => rfl
  | cons b bs ih => rw [State.setRegsFrom, ih]; split <;> rfl
@[simp] theorem setRegsFrom_disp (s : State) (k : Nat) (bs : List Byte) : (s.setRegsFrom k bs).disp = s.disp := by
  induction bs generalizing s k with
  | nil => rfl
  | cons b bs ih => rw [State.setRegsFrom, ih]; split <;> rfl
@[simp] theorem setRegsFrom_key (s : State) (k : Nat) (bs : List Byte) : (s.setRegsFrom k bs).key = s.key := by
  induction bs generalizing s k with
  | nil => rfl
  | cons b bs ih => rw [State.setRegsFrom, ih]; split <;> rfl
@[simp] theorem setRegsFrom_run (s : State) (k : Nat) (bs : List Byte) : (s.setRegsFrom k bs).run = s.run := by
  induction bs generalizing s k with
  | nil => rfl
  | cons b bs ih => rw [State.setRegsFrom, ih]; split <;> rfl
@[simp] theorem setRegsFrom_waitReg (s : State) (k : Nat) (bs : List Byte) : (s.setRegsFrom k bs).waitReg = s.waitReg := by
  induction bs generalizing s k with
  | nil => rfl
  | cons b bs ih => rw [State.setRegsFrom, ih]; split <;> rfl
@[simp] theorem setRegsFrom_fault (s : State) (k : Nat) (bs : List Byte) : (s.setRegsFrom k bs).fault = s.fault := by
  induction bs generalizing s k with
  | nil => rfl
  | cons b bs ih => rw [State.setRegsFrom, ih]; split <;> rfl
@[simp] theorem setRegsFrom_loaded (s : State) (k : Nat) (bs : List Byte) : (s.setRegsFrom k bs).loaded = s.loaded := by
  induction bs generalizing s k with
  | nil => rfl
  | cons b bs ih => rw [State.setRegsFrom, ih]; split <;> rfl
@[simp] theorem setRegsFrom_mem (s : State) (k : Nat) (bs : List Byte) : (s.setRegsFrom k bs).mem = s.mem := by
  induction bs generalizing s k with
  | nil => rfl
  | cons b bs ih => rw [State.setRegsFrom, ih]; split <;> rfl
@[simp] theorem setRegsFrom_cfg (s : State) (k : Nat) (bs : List Byte) : (s.setRegsFrom k bs).cfg = s.cfg := by
  induction bs generalizing s k with
  | nil => rfl
  | cons b bs ih => rw [State.setRegsFrom, ih]; split <;> rfl
@[simp] theorem setRegsFrom_draws (s : State) (k : Nat) (bs : List Byte) : (s.setRegsFrom k bs).draws = s.draws := by
  induction bs generalizing s k with
  | nil => rfl
  | cons b bs ih => rw [State.setRegsFrom, ih]; split <;> rfl

/-! ### Storing bytes in turn, unchecked -/

@[simp] theorem loadBytes_v (s : State) (a : Nat) (bs : List Byte) : (s.loadBytes a bs).v = s.v := by
  induction bs generalizing s a with
  | nil => rfl
  | cons b bs ih => rw [State.loadBytes, ih]; rfl
@[simp] theorem loadBytes_i (s : State) (a : Nat) (bs : List Byte) : (s.loadBytes a bs).i = s.i := by
  induction bs generalizing s a with
  | nil => rfl
  | cons b bs ih => rw [State.loadBytes, ih]; rfl
@[simp] theorem loadBytes_pc (s : State) (a : Nat) (bs : List Byte) : (s.loadBytes a bs).pc = s.pc := by
  induction bs generalizing s a with
  | nil => rfl
  | cons b bs ih => rw [State.loadBytes, ih]; rfl
@[simp] theorem loadBytes_stack (s : State) (a : Nat) (bs : List Byte) : (s.loadBytes a bs).stack = s.stack := by
  induction bs generalizing s a with
  | nil => rfl
  | cons b bs ih => rw [State.loadBytes, ih]; rfl
@[simp] theorem loadBytes_sp (s : State) (a : Nat) (bs : List Byte) : (s.loadBytes a bs).sp = s.sp := by
  induction bs generalizing s a with
  | nil => rfl
  | cons b bs ih => rw [State.loadBytes, ih]; rfl
@[simp] theorem loadBytes_dt (s : State) (a : Nat) (bs : List Byte) : (s.loadBytes a bs).dt = s.dt := by
  induction bs generalizing s a with
  | nil => rfl
  | cons b bs ih => rw [State.loadBytes, ih]; rfl
@[simp] theorem loadBytes_st (s : State) (a : Nat) (bs : List Byte) : (s.loadBytes a bs).st = s.st := by
  induction bs generalizing s a with
  | nil => rfl
  | cons b bs ih => rw [State.loadBytes, ih]; rfl
@[simp] theorem loadBytes_disp (s : State) (a : Nat) (bs : List Byte) : (s.loadBytes a bs).disp = s.disp := by
  induction bs generalizing s a with
  | nil => rfl
  | cons b bs ih => rw [State.loadBytes, ih]; rfl
@[simp] theorem loadBytes_key (s : State) (a : Nat) (bs : List Byte) : (s.loadBytes a bs).key = s.key := by
  induction bs generalizing s a with
  | nil => rfl
  | cons b bs ih => rw [State.loadBytes, ih]; rfl
@[simp] theorem loadBytes_run (s : State) (a : Nat) (bs : List Byte) : (s.loadBytes a bs).run = s.run := by
  induction bs generalizing s a with
  | nil => rfl
  | cons b bs ih => rw [State.loadBytes, ih]; rfl
@[simp] theorem loadBytes_waitReg (s : State) (a : Nat) (bs : List Byte) : (s.loadBytes a bs).waitReg = s.waitReg := by
  induction bs generalizing s a with
  | nil => rfl
  | cons b bs ih => rw [State.loadBytes, ih]; rfl
@[simp] theorem loadBytes_fault (s : State) (a : Nat) (bs : List Byte) : (s.loadBytes a bs).fault = s.fault := by
  induction bs generalizing s a with
  | nil => rfl
  | cons b bs ih => rw [State.loadBytes, ih]; rfl
@[simp] theorem loadBytes_loaded (s : State) (a : Nat) (bs : List Byte) : (s.loadBytes a bs).loaded = s.loaded := by
  induction bs generalizing s a with
  | nil => rfl
  | cons b bs ih => rw [State.loadBytes, ih]; rfl
@[simp] theorem loadBytes_cfg (s : State) (a : Nat) (bs : List Byte) : (s.loadBytes a bs).cfg = s.cfg := by
  induction bs generalizing s a with
  | nil => rfl
  | cons b bs ih => rw [State.loadBytes, ih]; rfl
@[simp] theorem loadBytes_draws (s : State) (a : Nat) (bs : List Byte) : (s.loadBytes a bs).draws = s.draws := by
  induction bs generalizing s a with
  | nil => rfl
  | cons b bs ih => rw [State.loadBytes, ih]; rfl

/-! ### Registers and memory seen through the other updates -/

theorem reg_setReg (s : State) (r q : Reg) (b : Byte) :
    (s.setReg r b).reg q = if q = r then b else s.reg q := by
  unfold State.reg State.setReg
  rw [Vector.getElem_set]
  by_cases h : q = r
  · subst h; simp
  · rw [if_neg h, if_neg (fun e => h (Fin.ext e.symm))]

@[simp] theorem reg_setReg_same (s : State) (r : Reg) (b : Byte) : (s.setReg r b).reg r = b := by
  simp [reg_setReg]

theorem reg_setReg_other (s : State) {r q : Reg} (b : Byte) (h : q ≠ r) : (s.setReg r b).reg q = s.reg q := by
  simp [reg_setReg, h]

theorem reg_setFlag (s : State) (q : Reg) (c : Bool) :
    (s.setFlag c).reg q = if q = VF then flagByte c else s.reg q := reg_setReg s VF q (flagByte c)

@[simp] theorem reg_advance (s : State) (q : Reg) : s.advance.reg q = s.reg q := rfl

@[simp] theorem reg_writeByte (s : State) (a : Nat) (b : Byte) (q : Reg) : (s.writeByte a b).reg q = s.reg q := rfl

@[simp] theorem reg_raiseFault (s : State) (e : Fault) (q : Reg) : (raiseFault e s).reg q = s.reg q := rfl

@[simp] theorem reg_skipIf (s : State) (c : Bool) (q : Reg) : (skipIf c s).reg q = s.reg q := by
  unfold State.reg; simp

@[simp] theorem reg_loadBytes (s : State) (a : Nat) (bs : List Byte) (q : Reg) : (s.loadBytes a bs).reg q = s.reg q := by
  unfold State.reg; simp

/-- A byte reads alike in two states of the same memory and configuration. -/
theorem readByte_congr {s t : State} (hm : t.mem = s.mem) (hc : t.cfg = s.cfg) (a : Nat) :
    t.readByte a = s.readByte a := by
  unfold State.readByte; rw [hm, hc]

@[simp] theorem readByte_setReg (s : State) (r : Reg) (b : Byte) (a : Nat) : (s.setReg r b).readByte a = s.readByte a := rfl

@[simp] theorem readByte_advance (s : State) (a : Nat) : s.advance.readByte a = s.readByte a := rfl

@[simp] theorem readByte_raiseFault (s : State) (e : Fault) (a : Nat) : (raiseFault e s).readByte a = s.readByte a := rfl

@[simp] theorem reg_setPc (s : State) (a : Word) (q : Reg) : (s.setPc a).reg q = s.reg q := rfl

@[simp] theorem readByte_setPc (s : State) (a : Word) (addr : Nat) : (s.setPc a).readByte addr = s.readByte addr := rfl

@[simp] theorem reg_setIndex (s : State) (w : Word) (q : Reg) : (s.setIndex w).reg q = s.reg q := rfl

@[simp] theorem readByte_setIndex (s : State) (w : Word) (addr : Nat) : (s.setIndex w).readByte addr = s.readByte addr := rfl

@[simp] theorem reg_setDelay (s : State) (b : Byte) (q : Reg) : (s.setDelay b).reg q = s.reg q := rfl

@[simp] theorem readByte_setDelay (s : State) (b : Byte) (addr : Nat) : (s.setDelay b).readByte addr = s.readByte addr := rfl

@[simp] theorem reg_setSound (s : State) (b : Byte) (q : Reg) : (s.setSound b).reg q = s.reg q := rfl

@[simp] theorem readByte_setSound (s : State) (b : Byte) (addr : Nat) : (s.setSound b).readByte addr = s.readByte addr := rfl

@[simp] theorem reg_setDisplay (s : State) (d : Display) (q : Reg) : (s.setDisplay d).reg q = s.reg q := rfl

@[simp] theorem readByte_setDisplay (s : State) (d : Display) (addr : Nat) : (s.setDisplay d).readByte addr = s.readByte addr := rfl

@[simp] theorem reg_setStack (s : State) (e : Vector Word 16) (n : Fin 17) (q : Reg) : (s.setStack e n).reg q = s.reg q := rfl

@[simp] theorem readByte_setStack (s : State) (e : Vector Word 16) (n : Fin 17) (addr : Nat) : (s.setStack e n).readByte addr = s.readByte addr := rfl

@[simp] theorem reg_setRun (s : State) (r : RunState) (q : Reg) : (s.setRun r).reg q = s.reg q := rfl

@[simp] theorem readByte_setRun (s : State) (r : RunState) (addr : Nat) : (s.setRun r).readByte addr = s.readByte addr := rfl

@[simp] theorem reg_setWaitReg (s : State) (x : Reg) (q : Reg) : (s.setWaitReg x).reg q = s.reg q := rfl

@[simp] theorem readByte_setWaitReg (s : State) (x : Reg) (addr : Nat) : (s.setWaitReg x).readByte addr = s.readByte addr := rfl

@[simp] theorem reg_countDraw (s : State) (q : Reg) : (s.countDraw).reg q = s.reg q := rfl

@[simp] theorem readByte_countDraw (s : State) (addr : Nat) : (s.countDraw).readByte addr = s.readByte addr := rfl

@[simp] theorem readByte_setFlag (s : State) (c : Bool) (a : Nat) : (s.setFlag c).readByte a = s.readByte a := rfl

@[simp] theorem readByte_skipIf (s : State) (c : Bool) (a : Nat) : (skipIf c s).readByte a = s.readByte a := by
  cases c <;> rfl

@[simp] theorem readByte_setLogicFlag (s : State) (a : Nat) : s.setLogicFlag.readByte a = s.readByte a :=
  readByte_congr (by simp) (by simp) a

@[simp] theorem readByte_setIndexFlag (s : State) (c : Bool) (a : Nat) : (s.setIndexFlag c).readByte a = s.readByte a :=
  readByte_congr (by simp) (by simp) a

@[simp] theorem skipIf_pc (s : State) (c : Bool) : (skipIf c s).pc = if c then s.pc + 2 else s.pc := by
  cases c <;> rfl

end Sys2Proof.Machine
end

