-- ==== Sys2Proof/Laws/Memory.lean ====
section
/-! SUPPORT. The laws of memory: read after write, and that a write keeps the canonical form. -/

namespace Sys2Proof.Machine

namespace Memory

/-! ### Read after write -/

@[simp] theorem lookup_nil (a : Nat) : lookup [] a = none := rfl

theorem lookup_cons (c : Host.Cell) (m : List Host.Cell) (a : Nat) :
    lookup (c :: m) a = if c.1 = a then some c.2 else lookup m a := by
  unfold lookup
  by_cases h : c.1 = a <;> simp [h]

theorem lookup_remove_same (m : List Host.Cell) (a : Nat) : lookup (remove a m) a = none := by
  simp [lookup, remove]

theorem lookup_remove_other (m : List Host.Cell) {a x : Nat} (h : x ≠ a) : lookup (remove a m) x = lookup m x := by
  induction m with
  | nil => rfl
  | cons c m ih =>
    by_cases hc : c.1 = a
    · have : remove a (c :: m) = remove a m := by simp [remove, hc]
      rw [this, ih, lookup_cons, if_neg (by omega)]
    · have : remove a (c :: m) = c :: remove a m := by simp [remove, hc]
      rw [this, lookup_cons, lookup_cons, ih]

theorem lookup_insertCell (c : Host.Cell) (m : List Host.Cell) (x : Nat) (h : lookup m c.1 = none) :
    lookup (insertCell c m) x = if c.1 = x then some c.2 else lookup m x := by
  induction m with
  | nil => rw [insertCell, lookup_cons]
  | cons d m ih =>
    rw [lookup_cons] at h
    split at h
    · simp at h
    · rename_i hd
      rw [insertCell]
      split
      · rw [lookup_cons]
      · rw [lookup_cons, ih h, lookup_cons]
        by_cases h1 : d.1 = x
        · rw [if_pos h1, if_pos h1, if_neg (by omega)]
        · rw [if_neg h1, if_neg h1]

theorem read_write_same (cfg : Config) (m : List Host.Cell) (a : Nat) (b : Byte) :
    read cfg (write cfg m a b) a = b := by
  unfold read write
  split
  · rename_i h; rw [lookup_remove_same, h]; rfl
  · rw [lookup_insertCell _ _ _ (lookup_remove_same m a), if_pos rfl]; rfl

theorem read_write_other (cfg : Config) (m : List Host.Cell) {a x : Nat} (b : Byte) (h : x ≠ a) :
    read cfg (write cfg m a b) x = read cfg m x := by
  unfold read write
  split
  · rw [lookup_remove_other m h]
  · rw [lookup_insertCell _ _ _ (lookup_remove_same m a), if_neg (fun e => h e.symm), lookup_remove_other m h]

/-! ### Canonical form -/

theorem wfFrom_cons {cfg : Config} {lo : Nat} {c : Host.Cell} {m : List Host.Cell} :
    wfFrom cfg lo (c :: m) = true ↔
      lo ≤ c.1 ∧ c.1 ≤ 0xFFF ∧ c.2 ≠ resetByte cfg c.1 ∧ wfFrom cfg (c.1 + 1) m = true := by
  obtain ⟨a, b⟩ := c
  simp [wfFrom, and_assoc]

theorem wfFrom_mono {cfg : Config} {lo lo' : Nat} {m : List Host.Cell} (h : wfFrom cfg lo' m = true) (hl : lo ≤ lo') :
    wfFrom cfg lo m = true := by
  cases m with
  | nil => rfl
  | cons c m => rw [wfFrom_cons] at h ⊢; exact ⟨by omega, h.2⟩

theorem wfFrom_remove {cfg : Config} {lo : Nat} {m : List Host.Cell} (a : Nat) (h : wfFrom cfg lo m = true) :
    wfFrom cfg lo (remove a m) = true := by
  induction m generalizing lo with
  | nil => rfl
  | cons c m ih =>
    rw [wfFrom_cons] at h
    by_cases hc : c.1 = a
    · have : remove a (c :: m) = remove a m := by simp [remove, hc]
      rw [this]
      exact wfFrom_mono (ih h.2.2.2) (by omega)
    · have : remove a (c :: m) = c :: remove a m := by simp [remove, hc]
      rw [this, wfFrom_cons]
      exact ⟨h.1, h.2.1, h.2.2.1, ih h.2.2.2⟩

theorem wfFrom_insertCell {cfg : Config} {lo : Nat} {c : Host.Cell} {m : List Host.Cell} (h : wfFrom cfg lo m = true)
    (hlo : lo ≤ c.1) (hhi : c.1 ≤ 0xFFF) (hb : c.2 ≠ resetByte cfg c.1) (hn : lookup m c.1 = none) :
    wfFrom cfg lo (insertCell c m) = true := by
  induction m generalizing lo with
  | nil => rw [insertCell, wfFrom_cons]; exact ⟨hlo, hhi, hb, rfl⟩
  | cons d m ih =>
    have hd := wfFrom_cons.mp h
    rw [lookup_cons] at hn
    split at hn
    · simp at hn
    · rename_i hne
      rw [insertCell]
      split
      · rename_i hlt
        rw [wfFrom_cons, wfFrom_cons]
        exact ⟨hlo, hhi, hb, by omega, hd.2⟩
      · rw [wfFrom_cons]
        exact ⟨hd.1, hd.2.1, hd.2.2.1, ih hd.2.2.2 (by omega) hn⟩

/-- A write inside the address space keeps the canonical form. -/
theorem wf_write {cfg : Config} {m : List Host.Cell} {a : Nat} (b : Byte) (h : wf cfg m = true) (ha : a ≤ 0xFFF) :
    wf cfg (write cfg m a b) = true := by
  unfold write wf at *
  split
  · exact wfFrom_remove a h
  · rename_i hb
    exact wfFrom_insertCell (wfFrom_remove a h) (Nat.zero_le _) ha hb (lookup_remove_same m a)

/-- A canonical memory lists nothing below its lower bound. -/
theorem lookup_below {cfg : Config} {lo a : Nat} {m : List Host.Cell} (h : wfFrom cfg lo m = true) (ha : a < lo) :
    lookup m a = none := by
  induction m generalizing lo with
  | nil => rfl
  | cons c m ih =>
    rw [wfFrom_cons] at h
    rw [lookup_cons, if_neg (by omega)]
    exact ih h.2.2.2 (by omega)

end Memory

/-! ### The same on states -/

theorem readByte_writeByte (s : State) (a x : Nat) (b : Byte) :
    (s.writeByte a b).readByte x = if x = a then b else s.readByte x := by
  unfold State.readByte State.writeByte
  by_cases h : x = a
  · subst h; rw [if_pos rfl]; exact Memory.read_write_same _ _ _ _
  · rw [if_neg h]; exact Memory.read_write_other _ _ _ h

theorem readByte_loadBytes (s : State) (a x : Nat) (bs : List Byte) :
    (s.loadBytes a bs).readByte x = if a ≤ x ∧ x < a + bs.length then bs.getD (x - a) 0 else s.readByte x := by
  induction bs generalizing s a with
  | nil => rw [State.loadBytes, if_neg (by simp)]
  | cons b bs ih =>
    rw [State.loadBytes, ih, readByte_writeByte]
    by_cases h1 : x = a
    · subst h1; rw [if_neg (by omega), if_pos rfl, if_pos (by simp)]; simp
    · by_cases h2 : a + 1 ≤ x ∧ x < a + 1 + bs.length
      · rw [if_pos h2, if_pos (by simp; omega)]
        have : x - a = (x - (a + 1)) + 1 := by omega
        rw [this, List.getD_cons_succ]
      · rw [if_neg h2, if_neg h1, if_neg (by simp; omega)]

theorem wf_loadBytes (s : State) (a : Nat) (bs : List Byte) (h : Memory.wf s.cfg s.mem = true)
    (ha : a + bs.length ≤ 0x1000) : Memory.wf s.cfg (s.loadBytes a bs).mem = true := by
  induction bs generalizing s a with
  | nil => exact h
  | cons b bs ih =>
    rw [List.length_cons] at ha
    exact ih (s.writeByte a b) (a + 1) (Memory.wf_write b h (by omega)) (by omega)

end Sys2Proof.Machine
end

