-- ==== Sys2Proof/Laws/Ops.lean ====
section
/-! SUPPORT. What each shared operation can do, said once: its result where it succeeds, its fatal error where it raises one. -/

namespace Sys2Proof.Machine

/-! ### Sequencing and the end of a meaning -/

@[simp] theorem ok_bind {α β : Type} (a : α) (f : α → Except Fault β) : ((Except.ok a : Except Fault α) >>= f) = f a := rfl

@[simp] theorem error_bind {α β : Type} (e : Fault) (f : α → Except Fault β) :
    ((Except.error e : Except Fault α) >>= f) = Except.error e := rfl

@[simp] theorem complete_ok (s t : State) : complete s (.ok t) = .next t := rfl

@[simp] theorem complete_error (s : State) (e : Fault) : complete s (.error e) = .next (raiseFault e s) := rfl

/-- A meaning ends in the state it computed, or in the state of its fatal error. -/
theorem complete_cases {s u : State} {r : Except Fault State} (h : complete s r = .next u) :
    r = .ok u ∨ ∃ e, r = .error e ∧ u = raiseFault e s := by
  cases r with
  | ok t => left; simpa using h
  | error e => right; exact ⟨e, rfl, by simpa using h.symm⟩

/-! ### Reading memory (20_memory.md R56, R58) -/

theorem memRead_ok {a : Nat} {s : State} (h : a ≤ 0xFFF) : memRead a s = .ok (s.readByte a) := by
  rw [memRead, if_pos h]

theorem memRead_error {a : Nat} {s : State} (h : 0xFFF < a) : memRead a s = .error (.outOfBounds (BitVec.ofNat 16 a)) := by
  rw [memRead, if_neg (by omega)]

theorem readBytes_ok (a n : Nat) (s : State) (h : a + n ≤ 0x1000) :
    readBytes a n s = .ok ((List.range n).map (fun k => s.readByte (a + k))) := by
  induction n generalizing a with
  | zero => rfl
  | succ n ih =>
    rw [readBytes, memRead_ok (by omega), ok_bind, ih (a + 1) (by omega), ok_bind, List.range_succ_eq_map]
    simp [Function.comp_def, Nat.add_assoc, Nat.add_comm 1]

/-- The first byte outside the space is the error reported. -/
theorem readBytes_error (a n : Nat) (s : State) (ha : a ≤ 0x1000) (h : 0x1000 < a + n) :
    readBytes a n s = .error (.outOfBounds 0x1000) := by
  induction n generalizing a with
  | zero => omega
  | succ n ih =>
    rw [readBytes]
    by_cases hx : a ≤ 0xFFF
    · rw [memRead_ok hx, ok_bind, ih (a + 1) (by omega) (by omega), error_bind]
    · have : a = 0x1000 := by omega
      subst this
      rw [memRead_error (by omega), error_bind]
      rfl

/-! ### Writing memory (20_memory.md R57, R58) -/

theorem memWrite_ok {a : Nat} {b : Byte} {s : State} (h : a ≤ 0xFFF) (hl : 0x200 ≤ a ∨ s.cfg.lowWrite = .allow) :
    memWrite a b s = .ok (s.writeByte a b) := by
  rw [memWrite, if_neg (by omega), if_neg]
  rintro ⟨h1, h2⟩
  rcases hl with h3 | h3
  · omega
  · rw [h3] at h2; exact absurd h2 (by decide)

theorem memWrite_outOfBounds {a : Nat} {b : Byte} {s : State} (h : 0xFFF < a) :
    memWrite a b s = .error (.outOfBounds (BitVec.ofNat 16 a)) := by
  rw [memWrite, if_pos h]

theorem memWrite_protected {a : Nat} {b : Byte} {s : State} (h : a < 0x200) (hl : s.cfg.lowWrite = .fault) :
    memWrite a b s = .error (.protectedWrite (BitVec.ofNat 12 a)) := by
  rw [memWrite, if_neg (by omega), if_pos ⟨h, hl⟩]

theorem memWrite_cases {a : Nat} {b : Byte} {s t : State} (h : memWrite a b s = .ok t) :
    a ≤ 0xFFF ∧ (0x200 ≤ a ∨ s.cfg.lowWrite = .allow) ∧ t = s.writeByte a b := by
  unfold memWrite at h
  split at h
  · cases h
  · split at h
    · cases h
    · rename_i h1 h2
      refine ⟨by omega, ?_, by simpa using h.symm⟩
      cases hc : s.cfg.lowWrite with
      | allow => exact .inr rfl
      | fault => exact .inl (by rw [hc] at h2; simp at h2; omega)

theorem writeBytes_ok (a : Nat) (bs : List Byte) (s : State) (h : a + bs.length ≤ 0x1000)
    (hl : 0x200 ≤ a ∨ s.cfg.lowWrite = .allow) : writeBytes a bs s = .ok (s.loadBytes a bs) := by
  induction bs generalizing a s with
  | nil => rfl
  | cons b bs ih =>
    rw [List.length_cons] at h
    rw [writeBytes, memWrite_ok (by omega) hl, ok_bind, ih _ _ (by omega) (by rcases hl with h | h <;> [left; right] <;> [omega; exact h])]
    rfl

/-- The first byte outside the space is the error reported. -/
theorem writeBytes_outOfBounds (a : Nat) (bs : List Byte) (s : State) (ha : a ≤ 0x1000) (h : 0x1000 < a + bs.length)
    (hl : 0x200 ≤ a ∨ s.cfg.lowWrite = .allow) : writeBytes a bs s = .error (.outOfBounds 0x1000) := by
  induction bs generalizing a s with
  | nil => simp at h; omega
  | cons b bs ih =>
    rw [List.length_cons] at h
    rw [writeBytes]
    by_cases hx : a ≤ 0xFFF
    · rw [memWrite_ok hx hl, ok_bind]
      exact ih _ _ (by omega) (by omega) (by rcases hl with h | h <;> [left; right] <;> [omega; exact h])
    · have : a = 0x1000 := by omega
      subst this
      rw [memWrite_outOfBounds (by omega), error_bind]
      rfl

/-- A store that starts in the protected region reports its first byte. -/
theorem writeBytes_protected (a : Nat) (b : Byte) (bs : List Byte) (s : State) (h : a < 0x200)
    (hl : s.cfg.lowWrite = .fault) : writeBytes a (b :: bs) s = .error (.protectedWrite (BitVec.ofNat 12 a)) := by
  rw [writeBytes, memWrite_protected h hl, error_bind]

/-- Everything a store can do: if it answers a state, every byte passed its checks and the bytes are stored. -/
theorem writeBytes_cases {a : Nat} {bs : List Byte} {s t : State} (h : writeBytes a bs s = .ok t) :
    t = s.loadBytes a bs ∧ (bs ≠ [] → a + bs.length ≤ 0x1000 ∧ (0x200 ≤ a ∨ s.cfg.lowWrite = .allow)) := by
  induction bs generalizing a s with
  | nil => exact ⟨by simpa [writeBytes, State.loadBytes, eq_comm] using h, fun e => absurd rfl e⟩
  | cons b bs ih =>
    rw [writeBytes] at h
    cases hw : memWrite a b s with
    | error e => rw [hw] at h; cases h
    | ok s' =>
      obtain ⟨h1, h2, rfl⟩ := memWrite_cases hw
      rw [hw, ok_bind] at h
      obtain ⟨h3, h4⟩ := ih h
      refine ⟨h3, fun _ => ⟨?_, h2⟩⟩
      cases bs with
      | nil => simp; omega
      | cons c cs => have := (h4 (by simp)).1; simp at this ⊢; omega

/-! ### Registers stored and loaded in turn (42_index_memory.md R174, R175) -/

theorem length_regsUpTo (s : State) (x : Reg) : (s.regsUpTo x).length = x.val + 1 := by
  simp [State.regsUpTo]

theorem getD_regsUpTo (s : State) (x k : Reg) (h : k.val ≤ x.val) : (s.regsUpTo x).getD k.val 0 = s.reg k := by
  unfold State.regsUpTo State.reg
  rw [List.getD_eq_getElem?_getD, List.getElem?_take, if_pos (by omega)]
  simp

theorem reg_setRegsFrom (s : State) (k : Nat) (bs : List Byte) (r : Reg) :
    (s.setRegsFrom k bs).reg r = if k ≤ r.val ∧ r.val < k + bs.length then bs.getD (r.val - k) 0 else s.reg r := by
  induction bs generalizing s k with
  | nil => rw [State.setRegsFrom, if_neg (by simp)]
  | cons b bs ih =>
    rw [State.setRegsFrom, ih]
    by_cases h2 : k + 1 ≤ r.val ∧ r.val < k + 1 + bs.length
    · rw [if_pos h2, if_pos (by simp; omega)]
      have : r.val - k = (r.val - (k + 1)) + 1 := by omega
      rw [this, List.getD_cons_succ]
    · rw [if_neg h2]
      by_cases h1 : r.val = k
      · subst h1; rw [if_pos (by simp), dif_pos r.isLt]; simp
      · rw [if_neg (by simp; omega)]
        split
        · exact reg_setReg_other _ _ (fun e => h1 (by rw [e]))
        · rfl

@[simp] theorem readByte_setRegsFrom (s : State) (k : Nat) (bs : List Byte) (a : Nat) :
    (s.setRegsFrom k bs).readByte a = s.readByte a := readByte_congr (by simp) (by simp) a

/-! ### Return stack (10_state.md R28) -/

theorem push_cases {a : Word} {s t : State} (h : push a s = .ok t) :
    ∃ hs : s.sp.val < 16, t = s.setStack (s.stack.set s.sp.val a) ⟨s.sp.val + 1, by omega⟩ := by
  unfold push at h
  split at h
  · rename_i hs; exact ⟨hs, by simpa using h.symm⟩
  · cases h

theorem push_overflow {a : Word} {s : State} (h : s.sp.val = 16) : push a s = .error .stackOverflow := by
  rw [push, dif_neg (by omega)]

theorem pop_cases {s t : State} {a : Word} (h : pop s = .ok (a, t)) :
    ∃ hs : 0 < s.sp.val, a = s.stack[s.sp.val - 1]'(by omega) ∧ t = s.setStack s.stack ⟨s.sp.val - 1, by omega⟩ := by
  unfold pop at h
  split at h
  · rename_i hs
    simp only [Except.ok.injEq, Prod.mk.injEq] at h
    exact ⟨hs, h.1.symm, h.2.symm⟩
  · cases h

theorem pop_underflow {s : State} (h : s.sp.val = 0) : pop s = .error .stackUnderflow := by
  rw [pop, dif_neg (by omega)]

/-! ### Control transfer (40_control.md R110) -/

theorem validateTarget_ok {t : Word} {s : State} (h : t.toNat ≤ 0xFFE) (ho : t.toNat % 2 = 0 ∨ s.cfg.oddTarget = .allow) :
    validateTarget t s = .ok (s.setPc t) := by
  rw [validateTarget, if_neg (by omega), if_neg]
  rintro ⟨h1, h2⟩
  rcases ho with h3 | h3
  · rw [BitVec.getLsbD, Nat.testBit_zero] at h1
    simp at h1; omega
  · rw [h3] at h2; exact absurd h2 (by decide)

theorem validateTarget_outOfBounds {t : Word} {s : State} (h : 0xFFE < t.toNat) :
    validateTarget t s = .error (.outOfBounds t) := by
  rw [validateTarget, if_pos (by omega)]

theorem validateTarget_misaligned {t : Word} {s : State} (h : t.toNat ≤ 0xFFE) (ho : t.toNat % 2 = 1)
    (hc : s.cfg.oddTarget = .fault) : validateTarget t s = .error (.misalignedTarget t) := by
  rw [validateTarget, if_neg (by omega), if_pos ⟨by rw [BitVec.getLsbD, Nat.testBit_zero]; simp [ho], hc⟩]

theorem validateTarget_cases {t : Word} {s u : State} (h : validateTarget t s = .ok u) :
    t.toNat ≤ 0xFFE ∧ (t.toNat % 2 = 0 ∨ s.cfg.oddTarget = .allow) ∧ u = s.setPc t := by
  by_cases h1 : t.toNat ≤ 0xFFE
  · by_cases h2 : t.toNat % 2 = 0 ∨ s.cfg.oddTarget = .allow
    · rw [validateTarget_ok h1 h2] at h
      exact ⟨h1, h2, by simpa using h.symm⟩
    · have h3 : t.toNat % 2 = 1 := by omega
      have h4 : s.cfg.oddTarget = .fault := by
        cases hc : s.cfg.oddTarget with
        | fault => rfl
        | allow => exact absurd (.inr hc) h2
      rw [validateTarget_misaligned h1 h3 h4] at h; cases h
  · rw [validateTarget_outOfBounds (by omega)] at h; cases h

/-! ### Operand forms -/

theorem indexBase_eq (i : Word) : indexBase i = i.toNat % 0x1000 := by
  simp [indexBase, BitVec.extractLsb'_toNat]

theorem ea_eq (i : Word) (k : Nat) : ea i k = i.toNat % 0x1000 + k := by
  rw [ea, indexBase_eq]

theorem ea_add (i : Word) (k : Nat) : ea i k = ea i 0 + k := by simp [ea]

theorem ea_zero_le (i : Word) : ea i 0 ≤ 0xFFF := by rw [ea_eq]; omega

/-! ### Fetch (20_memory.md R59) -/

theorem toNat_wordOfBytes (hi lo : Byte) : (wordOfBytes hi lo).toNat = 256 * hi.toNat + lo.toNat := by
  have := lo.isLt
  simp only [wordOfBytes, BitVec.toNat_append]
  rw [Nat.shiftLeft_eq, Nat.mul_comm, ← Nat.two_pow_add_eq_or_of_lt (by omega)]

theorem fetch_ok {s : State} (h : s.pc.toNat ≤ 0xFFE) :
    fetch s = .ok (wordOfBytes (s.readByte s.pc.toNat) (s.readByte (s.pc.toNat + 1))) := by
  rw [fetch, if_neg (by omega)]

theorem fetch_error {s : State} (h : 0xFFE < s.pc.toNat) : fetch s = .error (.fetchOutOfBounds s.pc) := by
  rw [fetch, if_pos (by omega)]

end Sys2Proof.Machine
end

