-- ==== Sys2Proof/Laws/Display.lean ====
section
/-! SUPPORT. The laws of the display buffer: one pixel read after one pixel written, and one bit drawn. -/

namespace Sys2Proof.Machine

theorem pixel_setPixel (d : Display) (c c' : Fin 64) (r r' : Fin 32) (b : Bool) :
    pixel (setPixel d c r b) c' r' = if c' = c ∧ r' = r then b else pixel d c' r' := by
  unfold pixel setPixel
  by_cases hc : c' = c
  · subst hc
    simp only [Vector.getElem_set_self, true_and]
    by_cases hr : r' = r
    · subst hr; simp
    · rw [if_neg hr, Vector.getElem_set_ne _ _ (fun e => hr (Fin.ext e.symm))]
  · rw [if_neg (fun h => hc h.1)]
    simp only [Vector.getElem_set_ne _ _ (fun e => hc (Fin.ext e.symm))]

/-- Two displays with the same pixels are the same. -/
theorem display_ext {d e : Display} (h : ∀ c r, pixel d c r = pixel e c r) : d = e := by
  apply Vector.ext; intro c hc
  apply Vector.ext; intro r hr
  exact h ⟨c, hc⟩ ⟨r, hr⟩

@[simp] theorem pixel_clearDisplay (c : Fin 64) (r : Fin 32) : pixel clearDisplay c r = false := by
  simp [pixel, clearDisplay]

/-- One bit drawn: its target pixel takes the exclusive or, every other pixel stays. -/
theorem pixel_drawBit (cx cy : Byte) (row col : Nat) (bit : Bool) (acc : Display × Bool) (c : Fin 64) (r : Fin 32) :
    pixel (drawBit cx cy row col bit acc).1 c r =
      (pixel acc.1 c r ^^
        (bit && decide (c.val = (cx.toNat + col) % 64) && decide (r.val = (cy.toNat + row) % 32))) := by
  have hc : c = Fin.ofNat 64 (cx.toNat + col) ↔ c.val = (cx.toNat + col) % 64 := Fin.ext_iff
  have hr : r = Fin.ofNat 32 (cy.toNat + row) ↔ r.val = (cy.toNat + row) % 32 := Fin.ext_iff
  rw [drawBit, pixel_setPixel]
  by_cases h : c = Fin.ofNat 64 (cx.toNat + col) ∧ r = Fin.ofNat 32 (cy.toNat + row)
  · rw [if_pos h, ← h.1, ← h.2, decide_eq_true (hc.mp h.1), decide_eq_true (hr.mp h.2), Bool.and_true, Bool.and_true]
  · rw [if_neg h]
    rw [hc, hr] at h
    by_cases h1 : c.val = (cx.toNat + col) % 64
    · rw [decide_eq_false (fun h2 => h ⟨h1, h2⟩)]; simp
    · rw [decide_eq_false h1]; simp

/-- One bit drawn collides exactly when it is set and its target pixel was. -/
theorem collision_drawBit (cx cy : Byte) (row col : Nat) (bit : Bool) (acc : Display × Bool) :
    (drawBit cx cy row col bit acc).2 =
      (acc.2 || (pixel acc.1 (Fin.ofNat 64 (cx.toNat + col)) (Fin.ofNat 32 (cy.toNat + row)) && bit)) := rfl

/-! ### The sprite as a list of bits, each with its pixel -/

/-- One bit of a sprite and the pixel it falls on. -/
abbrev Dot := (Fin 64 × Fin 32) × Bool

/-- One bit drawn. -/
def dot (acc : Display × Bool) (p : Dot) : Display × Bool :=
  (setPixel acc.1 p.1.1 p.1.2 (pixel acc.1 p.1.1 p.1.2 ^^ p.2), acc.2 || (pixel acc.1 p.1.1 p.1.2 && p.2))

theorem pixel_dot (acc) (p : Dot) (c r) : pixel (dot acc p).1 c r = (pixel acc.1 c r ^^ (decide (p.1 = (c, r)) && p.2)) := by
  obtain ⟨⟨a, b⟩, v⟩ := p
  unfold dot; rw [pixel_setPixel]
  by_cases h : c = a ∧ r = b
  · obtain ⟨rfl, rfl⟩ := h; simp
  · rw [if_neg h]
    have : ¬ ((a, b) = (c, r)) := by rintro e; cases e; exact h ⟨rfl, rfl⟩
    simp [this]

/-- Bits drawn on distinct pixels: each pixel takes the exclusive or with its own bit, and the collision bit tells whether one of them fell on a set pixel of the display before. -/
theorem paint (l : List Dot) (hd : (l.map Prod.fst).Nodup) (acc : Display × Bool) :
    (∀ c r, pixel (l.foldl dot acc).1 c r = (pixel acc.1 c r ^^ l.any (fun p => decide (p.1 = (c, r)) && p.2))) ∧
    ((l.foldl dot acc).2 = (acc.2 || l.any (fun p => pixel acc.1 p.1.1 p.1.2 && p.2))) := by
  induction l generalizing acc with
  | nil => simp
  | cons p l ih =>
    simp only [List.map_cons, List.nodup_cons] at hd
    obtain ⟨h1, h2⟩ := ih hd.2 (dot acc p)
    constructor
    · intro c r
      rw [List.foldl_cons, h1, pixel_dot, List.any_cons]
      by_cases h : p.1 = (c, r)
      · have : l.any (fun q => decide (q.1 = (c, r)) && q.2) = false := by
          rw [List.any_eq_false]
          intro q hq e
          simp at e
          exact hd.1 (List.mem_map.mpr ⟨q, hq, by rw [e.1, h]⟩)
        rw [this]; simp
      · simp [h]
    · rw [List.foldl_cons, h2, List.any_cons]
      have e : l.any (fun q => pixel (dot acc p).1 q.1.1 q.1.2 && q.2) = l.any (fun q => pixel acc.1 q.1.1 q.1.2 && q.2) := by
        rw [Bool.eq_iff_iff, List.any_eq_true, List.any_eq_true]
        refine exists_congr fun q => and_congr_right fun hq => ?_
        rw [pixel_dot]
        have : p.1 ≠ (q.1.1, q.1.2) := fun e => hd.1 (List.mem_map.mpr ⟨q, hq, e.symm⟩)
        simp [this]
      rw [e]
      show ((acc.2 || _) || _) = _
      rw [Bool.or_assoc]

/-- The bits of one row of a sprite. -/
def rowDots (cx cy : Byte) (row : Nat) (b : Byte) : List Dot :=
  (List.range 8).map fun col => ((Fin.ofNat 64 (cx.toNat + col), Fin.ofNat 32 (cy.toNat + row)), b.getLsbD (7 - col))

/-- The bits of the rows from `row` on. -/
def allDots (cx cy : Byte) (row : Nat) : List Byte → List Dot
  | [] => []
  | b :: bs => rowDots cx cy row b ++ allDots cx cy (row + 1) bs

theorem drawRow_eq (cx cy row b acc) : drawRow cx cy row b acc = (rowDots cx cy row b).foldl dot acc := by
  rw [rowDots, List.foldl_map]; rfl

theorem drawRows_eq (cx cy row bs acc) : drawRows cx cy row bs acc = (allDots cx cy row bs).foldl dot acc := by
  induction bs generalizing row acc with
  | nil => rfl
  | cons b bs ih => rw [drawRows, ih, drawRow_eq, allDots, List.foldl_append]

theorem mem_allDots (cx cy row bs) (p : Dot) : p ∈ allDots cx cy row bs ↔
    ∃ k col, k < bs.length ∧ col < 8 ∧ p = ((Fin.ofNat 64 (cx.toNat + col), Fin.ofNat 32 (cy.toNat + (row + k))), (bs.getD k 0).getLsbD (7 - col)) := by
  induction bs generalizing row with
  | nil => simp [allDots]
  | cons b bs ih =>
    rw [allDots, List.mem_append, ih]
    constructor
    · rintro (h | ⟨k, col, h1, h2, h3⟩)
      · simp [rowDots] at h
        obtain ⟨col, hc, rfl⟩ := h
        exact ⟨0, col, by simp, hc, rfl⟩
      · exact ⟨k + 1, col, by simpa using h1, h2, by rw [h3]; simp [Nat.add_assoc, Nat.add_comm 1]⟩
    · rintro ⟨k, col, h1, h2, h3⟩
      cases k with
      | zero => left; simp [rowDots]; exact ⟨col, h2, h3.symm⟩
      | succ k => right; exact ⟨k, col, by simpa using h1, h2, by rw [h3]; simp [Nat.add_assoc, Nat.add_comm 1]⟩

theorem nodup_allDots (cx cy row bs) (h : bs.length ≤ 32) : ((allDots cx cy row bs).map Prod.fst).Nodup := by
  induction bs generalizing row with
  | nil => simp [allDots]
  | cons b bs ih =>
    rw [allDots, List.map_append, List.nodup_append]
    simp only [List.length_cons] at h
    refine ⟨?_, ih _ (by omega), ?_⟩
    · simp only [rowDots, List.map_map]
      apply List.Nodup.map_on _ List.nodup_range
      intro a ha b hb e
      simp at ha hb
      simp only [Function.comp, Prod.mk.injEq, and_true] at e
      have := congrArg Fin.val e; simp at this; omega
    · intro a ha b hb e
      subst e
      obtain ⟨p, hp, rfl⟩ := List.mem_map.mp ha
      obtain ⟨q, hq, e⟩ := List.mem_map.mp hb
      simp only [rowDots, List.mem_map, List.mem_range] at hp
      obtain ⟨col, hc, rfl⟩ := hp
      obtain ⟨k, col', h1, h2, rfl⟩ := (mem_allDots _ _ _ _ _).mp hq
      simp only [Prod.mk.injEq] at e
      have := congrArg Fin.val e.2; simp at this; omega

end Sys2Proof.Machine
end

