-- ==== Sys2Proof/Laws/Step.lean ====
section
/-! SUPPORT. What a step can do, said once: the cases of step, and that every meaning ends in a state. -/

namespace Sys2Proof.Machine

/-- Every meaning is the end of an attempt: it never stops the machine. -/
theorem exec_is_complete (i : Instr) (s : State) : ∃ r : Except Fault State, exec i s = complete s r := by
  cases i <;>
    simp only [exec, execSys, execCls, execRet, execJp, execCall, execSeImm, execSneImm, execSeReg, execLdImm, execAddImm,
      execLdReg, execOr, execAnd, execXor, execAddReg, execSub, execShr, execSubn, execShl, execSneReg, execLdI,
      execJpV0, execRnd, execDrw, execSkp, execSknp, execLdVxDt, execLdVxK, execLdDtVx, execLdStVx, execAddI,
      execLdF, execLdB, execLdMemVx, execLdVxMem] <;>
    exact ⟨_, rfl⟩

theorem exec_answers (i : Instr) (s : State) : ∃ t, exec i s = .next t := by
  obtain ⟨r, hr⟩ := exec_is_complete i s
  rw [hr]
  cases r with
  | ok t => exact ⟨t, rfl⟩
  | error e => exact ⟨_, rfl⟩

theorem step_unloaded {s : State} (h : s.loaded = false) : step s = .next s := by
  simp [step, h]

theorem step_halted {s : State} (h : s.run = .halted) : step s = .next s := by
  unfold step; rw [h]; split <;> rfl

theorem step_awaitingKey {s : State} (hl : s.loaded = true) (h : s.run = .awaitingKey) :
    step s = .next (keyWaitStep s) := by
  unfold step; rw [h, hl]; rfl

theorem step_running {s : State} (hl : s.loaded = true) (h : s.run = .running) : step s = runningStep s := by
  unfold step; rw [h, hl]; rfl

theorem runningStep_fetch_error {s : State} {e : Fault} (h : fetch s = .error e) : runningStep s = .next (raiseFault e s) := by
  unfold runningStep; rw [h]

theorem runningStep_illegal {s : State} {op : Word} (h : fetch s = .ok op) (hd : decode s.cfg op = none) :
    runningStep s = .next (raiseFault (.illegalOpcode op) s) := by
  unfold runningStep; rw [h]; simp only [hd]

theorem runningStep_exec {s : State} {op : Word} {i : Instr} (h : fetch s = .ok op) (hd : decode s.cfg op = some i) :
    runningStep s = exec i s := by
  unfold runningStep; rw [h]; simp only [hd]

/-- Everything a step can do. -/
theorem step_cases {s t : State} (h : step s = .next t) :
    ((s.loaded = false ∨ s.run = .halted) ∧ t = s) ∨
    (s.loaded = true ∧ s.run = .awaitingKey ∧ t = keyWaitStep s) ∨
    (s.loaded = true ∧ s.run = .running ∧
      ((∃ e, t = raiseFault e s) ∨
        ∃ op i, fetch s = .ok op ∧ decode s.cfg op = some i ∧ exec i s = .next t)) := by
  cases hl : s.loaded with
  | false =>
    rw [step_unloaded hl] at h
    exact .inl ⟨.inl rfl, by simpa using h.symm⟩
  | true =>
    cases hr : s.run with
    | halted =>
      rw [step_halted hr] at h
      exact .inl ⟨.inr rfl, by simpa using h.symm⟩
    | awaitingKey =>
      rw [step_awaitingKey hl hr] at h
      exact .inr (.inl ⟨rfl, rfl, by simpa using h.symm⟩)
    | running =>
      rw [step_running hl hr] at h
      refine .inr (.inr ⟨rfl, rfl, ?_⟩)
      cases hf : fetch s with
      | error e =>
        rw [runningStep_fetch_error hf] at h
        exact .inl ⟨e, by simpa using h.symm⟩
      | ok op =>
        cases hd : decode s.cfg op with
        | none =>
          rw [runningStep_illegal hf hd] at h
          exact .inl ⟨_, by simpa using h.symm⟩
        | some i =>
          rw [runningStep_exec hf hd] at h
          exact .inr ⟨op, i, rfl, hd, h⟩

end Sys2Proof.Machine
end

