-- ==== Sys2Proof/Laws/Frame.lean ====
section
/-! SUPPORT. What each instruction may change beside `pc`, said once: `exec_cases` is the case analysis of `exec` that invariants and frames cite. -/

namespace Sys2Proof.Machine

open Sys2Proof.Safety

/-- What an instruction that completes may change beside `pc`. -/
def mayChange (i : Instr) (s : State) : Changes :=
  match i with
  | .ldI _ | .ldF _ => { index := true }
  | .addI _ => { index := true, regs := [VF] }
  | .ldMemVx x => { index := true, bytes := (List.range (x.val + 1)).map (ea s.i) }
  | .ldVxMem _ => { index := true, regs := List.finRange 16 }
  | .ldB _ => { bytes := [ea s.i 0, ea s.i 1, ea s.i 2] }
  | .ret | .call _ => { stack := true }
  | .cls => { display := true }
  | .drw .. => { display := true, regs := [VF] }
  | .ldDtVx _ => { delay := true }
  | .ldStVx _ => { sound := true }
  | .ldVxK _ => { wait := true }
  | .rnd x _ => { regs := [x], draws := true }
  | .ldImm x _ | .addImm x _ | .ldReg x _ | .ldVxDt x => { regs := [x] }
  | .orReg x _ | .andReg x _ | .xorReg x _ | .addReg x _ | .sub x _ | .subn x _ | .shr x _ | .shl x _ => { regs := [x, VF] }
  | .sys _ | .jp _ | .jpV0 _ | .seImm .. | .sneImm .. | .seReg .. | .sneReg .. | .skp _ | .sknp _ => {}

theorem frame_skip (c : Bool) (s : State) : Frame {} s (skipIf c s.advance) := by
  constructor <;> simp

theorem frame_reg (x : Reg) (b : Byte) (s : State) : Frame { regs := [x] } s (s.advance.setReg x b) := by
  constructor <;> simp
  exact fun r h => by rw [reg_setReg_other _ _ h]; rfl

theorem frame_reg_flag (x : Reg) (b : Byte) (c : Bool) (s : State) : Frame { regs := [x, VF] } s ((s.advance.setReg x b).setFlag c) := by
  constructor <;> simp
  · intro r h h'
    rw [reg_setFlag, if_neg h', reg_setReg_other _ _ h]; rfl

theorem frame_reg_logic (x : Reg) (b : Byte) (s : State) : Frame { regs := [x, VF] } s ((s.advance.setReg x b).setLogicFlag) := by
  unfold State.setLogicFlag
  split
  · exact frame_reg_flag x b false s
  · have := frame_reg x b s
    constructor <;> simp
    exact fun r h h' => by rw [reg_setReg_other _ _ h]; rfl

/-- Bytes stored at addresses of `l`, and `I` written. -/
theorem frame_loadBytes (s : State) (a : Nat) (bs : List Byte) (l : List Nat) (hl : ∀ x, a ≤ x → x < a + bs.length → x ∈ l) (w : Word) :
    Frame { index := true, bytes := l } s ((s.advance.loadBytes a bs).setIndex w) := by
  constructor <;> simp
  · intro x hx
    rw [readByte_loadBytes, if_neg]
    · rfl
    · rintro ⟨h1, h2⟩; exact hx (hl x h1 h2)

/-- Every meaning ends in the state of a fatal error, or changes only what `mayChange` names. -/
theorem exec_cases (i : Instr) (s t : State) (h : exec i s = .next t) :
    (∃ e, t = raiseFault e s) ∨ (Frame (mayChange i s) s t) := by
  cases i with
  | seImm x kk => right; simp only [exec, execSeImm, complete_ok] at h; cases h; exact frame_skip _ _
  | sneImm x kk => right; simp only [exec, execSneImm, complete_ok] at h; cases h; exact frame_skip _ _
  | seReg x y n => right; simp only [exec, execSeReg, complete_ok] at h; cases h; exact frame_skip _ _
  | sneReg x y n => right; simp only [exec, execSneReg, complete_ok] at h; cases h; exact frame_skip _ _
  | ldImm x kk => right; simp only [exec, execLdImm, complete_ok] at h; cases h; exact frame_reg _ _ _
  | addImm x kk => right; simp only [exec, execAddImm, complete_ok] at h; cases h; exact frame_reg _ _ _
  | ldReg x y => right; simp only [exec, execLdReg, complete_ok] at h; cases h; exact frame_reg _ _ _
  | ldVxDt x => right; simp only [exec, execLdVxDt, complete_ok] at h; cases h; exact frame_reg _ _ _
  | orReg x y => right; simp only [exec, execOr, complete_ok] at h; cases h; exact frame_reg_logic _ _ _
  | andReg x y => right; simp only [exec, execAnd, complete_ok] at h; cases h; exact frame_reg_logic _ _ _
  | xorReg x y => right; simp only [exec, execXor, complete_ok] at h; cases h; exact frame_reg_logic _ _ _
  | addReg x y => right; simp only [exec, execAddReg, complete_ok] at h; cases h; exact frame_reg_flag _ _ _ _
  | sub x y => right; simp only [exec, execSub, complete_ok] at h; cases h; exact frame_reg_flag _ _ _ _
  | subn x y => right; simp only [exec, execSubn, complete_ok] at h; cases h; exact frame_reg_flag _ _ _ _
  | shr x y => right; simp only [exec, execShr, complete_ok] at h; cases h; exact frame_reg_flag _ _ _ _
  | shl x y => right; simp only [exec, execShl, complete_ok] at h; cases h; exact frame_reg_flag _ _ _ _
  | rnd x kk =>
    right; simp only [exec, execRnd, complete_ok] at h; cases h
    constructor <;> simp [mayChange]
    · exact fun r h => by rw [reg_setReg_other _ _ h]; rfl
  | ldI nnn => right; simp only [exec, execLdI, complete_ok] at h; cases h; constructor <;> simp [mayChange]
  | ldF x => right; simp only [exec, execLdF, complete_ok] at h; cases h; constructor <;> simp [mayChange]
  | addI x =>
    right; simp only [exec, execAddI, complete_ok] at h; cases h; constructor <;> simp [mayChange]
    · intro r hr
      unfold State.setIndexFlag; split
      · rw [reg_setFlag, if_neg hr]; rfl
      · rfl
  | ldDtVx x => right; simp only [exec, execLdDtVx, complete_ok] at h; cases h; constructor <;> simp [mayChange]
  | ldStVx x => right; simp only [exec, execLdStVx, complete_ok] at h; cases h; constructor <;> simp [mayChange]
  | ldVxK x => right; simp only [exec, execLdVxK, complete_ok] at h; cases h; constructor <;> simp [mayChange]
  | cls => right; simp only [exec, execCls, complete_ok] at h; cases h; constructor <;> simp [mayChange]
  | skp x =>
    simp only [exec, execSkp] at h
    cases hk : keyIndex (encode (.skp x)) (s.reg x) s with
    | error e => rw [hk] at h; simp at h; left; exact ⟨e, h.symm⟩
    | ok k => rw [hk] at h; simp at h; right; cases h; exact frame_skip _ _
  | sknp x =>
    simp only [exec, execSknp] at h
    cases hk : keyIndex (encode (.sknp x)) (s.reg x) s with
    | error e => rw [hk] at h; simp at h; left; exact ⟨e, h.symm⟩
    | ok k => rw [hk] at h; simp at h; right; cases h; exact frame_skip _ _
  | sys nnn =>
    simp only [exec, execSys] at h
    split at h <;> simp at h
    · right; cases h; constructor <;> simp [mayChange]
    · left; exact ⟨_, h.symm⟩
  | jp nnn =>
    rcases complete_cases h with h | ⟨e, _, h⟩
    · obtain ⟨_, _, rfl⟩ := validateTarget_cases h
      right; constructor <;> simp [mayChange]
    · exact .inl ⟨e, h⟩
  | jpV0 nnn =>
    rcases complete_cases h with h | ⟨e, _, h⟩
    · obtain ⟨_, _, rfl⟩ := validateTarget_cases h
      right; constructor <;> simp [mayChange]
    · exact .inl ⟨e, h⟩
  | call nnn =>
    rcases complete_cases h with h | ⟨e, _, h⟩
    · cases hp : push s.advance.pc s.advance with
      | error e => rw [hp] at h; cases h
      | ok s' =>
        obtain ⟨_, rfl⟩ := push_cases hp
        rw [hp] at h; simp at h
        obtain ⟨_, _, rfl⟩ := validateTarget_cases h
        right; constructor <;> simp [mayChange]
    · exact .inl ⟨e, h⟩
  | ret =>
    rcases complete_cases h with h | ⟨e, _, h⟩
    · cases hp : pop s.advance with
      | error e => rw [hp] at h; cases h
      | ok q =>
        obtain ⟨a, s'⟩ := q
        obtain ⟨_, rfl, rfl⟩ := pop_cases hp
        rw [hp] at h; simp at h
        obtain ⟨_, _, rfl⟩ := validateTarget_cases h
        right; constructor <;> simp [mayChange]
    · exact .inl ⟨e, h⟩
  | ldB x =>
    rcases complete_cases h with h | ⟨e, _, h⟩
    · obtain ⟨rfl, _⟩ := writeBytes_cases h
      right; have := frame_loadBytes s (ea s.i 0) (bcdDigits (s.reg x)) [ea s.i 0, ea s.i 1, ea s.i 2]
        (by intro z h1 h2; rw [ea_add s.i 1, ea_add s.i 2]; simp [bcdDigits] at h2 ⊢; omega) s.i
      obtain ⟨h1,h2,h3,h4,h5,h6,h7,h8,h9,h10,h11,h12,h13,h14⟩ := this
      exact ⟨h1, by simp, h3, h4, h5, h6, h7, h8, h9, h10, h11, h12, h13, h14, by simp⟩
    · exact .inl ⟨e, h⟩
  | ldMemVx x =>
    rcases complete_cases h with h | ⟨e, _, h⟩
    · cases hp : writeBytes (ea s.i 0) (s.regsUpTo x) s.advance with
      | error e => rw [hp] at h; cases h
      | ok s' =>
        obtain ⟨rfl, _⟩ := writeBytes_cases hp
        rw [hp] at h; simp at h; subst h
        right; apply frame_loadBytes
        intro z h1 h2; rw [length_regsUpTo] at h2; simp
        exact ⟨z - ea s.i 0, by omega, by rw [ea_add]; omega⟩
    · exact .inl ⟨e, h⟩
  | ldVxMem x =>
    rcases complete_cases h with h | ⟨e, _, h⟩
    · cases hp : readBytes (ea s.i 0) (x.val + 1) s.advance with
      | error e => rw [hp] at h; cases h
      | ok bs =>
        rw [hp] at h; simp at h; subst h
        right; constructor <;> simp [mayChange]
    · exact .inl ⟨e, h⟩
  | drw x y n =>
    rcases complete_cases h with h | ⟨e, _, h⟩
    · split at h
      · unfold drawNothing at h; split at h
        · cases h
        · simp at h; subst h
          right; constructor <;> simp [mayChange]
          · intro r hr; rw [reg_setFlag, if_neg hr]; rfl
      · unfold drawFromMemory at h
        cases hp : readBytes (ea s.i 0) n.toNat s with
        | error e => rw [hp] at h; cases h
        | ok bs =>
          rw [hp] at h; simp at h; subst h
          right; constructor <;> simp [mayChange]
          · intro r hr; rw [reg_setFlag, if_neg hr]; rfl
    · exact .inl ⟨e, h⟩


end Sys2Proof.Machine
end

