-- ==== Sys2Proof/Laws/PerInstr.lean ====
section
/-! SUPPORT. A statement made per instruction: the major opcode of its encoding (30_encoding.md R83, R87). -/

namespace Sys2Proof.Laws.MajorOpcode

/-- The major opcode of each variant (R83). -/
def major : Instr → Nibble
  | .sys _ | .cls | .ret => 0x0
  | .jp _ => 0x1
  | .call _ => 0x2
  | .seImm _ _ => 0x3
  | .sneImm _ _ => 0x4
  | .seReg _ _ _ => 0x5
  | .ldImm _ _ => 0x6
  | .addImm _ _ => 0x7
  | .ldReg _ _ | .orReg _ _ | .andReg _ _ | .xorReg _ _ | .addReg _ _ | .sub _ _ | .shr _ _ | .subn _ _ | .shl _ _ => 0x8
  | .sneReg _ _ _ => 0x9
  | .ldI _ => 0xA
  | .jpV0 _ => 0xB
  | .rnd _ _ => 0xC
  | .drw _ _ _ => 0xD
  | .skp _ | .sknp _ => 0xE
  | .ldVxDt _ | .ldVxK _ | .ldDtVx _ | .ldStVx _ | .addI _ | .ldF _ | .ldB _ | .ldMemVx _ | .ldVxMem _ => 0xF

/-- The high nibble of the encoding is the major opcode of the variant. -/
def Statement (i : Instr) : Prop := fieldN1 (encode i) = major i

theorem sys (nnn : Addr) : Statement (.sys nnn) := by
  simp [Statement, encode, major]

theorem cls : Statement (.cls) := by
  unfold Statement; decide

theorem ret : Statement (.ret) := by
  unfold Statement; decide

theorem jp (nnn : Addr) : Statement (.jp nnn) := by
  simp [Statement, encode, major]

theorem call (nnn : Addr) : Statement (.call nnn) := by
  simp [Statement, encode, major]

theorem seImm (x : Reg) (kk : Byte) : Statement (.seImm x kk) := by
  simp [Statement, encode, major]

theorem sneImm (x : Reg) (kk : Byte) : Statement (.sneImm x kk) := by
  simp [Statement, encode, major]

theorem seReg (x y : Reg) (n : Nibble) : Statement (.seReg x y n) := by
  simp [Statement, encode, major]

theorem ldImm (x : Reg) (kk : Byte) : Statement (.ldImm x kk) := by
  simp [Statement, encode, major]

theorem addImm (x : Reg) (kk : Byte) : Statement (.addImm x kk) := by
  simp [Statement, encode, major]

theorem ldReg (x y : Reg) : Statement (.ldReg x y) := by
  simp [Statement, encode, major]

theorem orReg (x y : Reg) : Statement (.orReg x y) := by
  simp [Statement, encode, major]

theorem andReg (x y : Reg) : Statement (.andReg x y) := by
  simp [Statement, encode, major]

theorem xorReg (x y : Reg) : Statement (.xorReg x y) := by
  simp [Statement, encode, major]

theorem addReg (x y : Reg) : Statement (.addReg x y) := by
  simp [Statement, encode, major]

theorem sub (x y : Reg) : Statement (.sub x y) := by
  simp [Statement, encode, major]

theorem shr (x y : Reg) : Statement (.shr x y) := by
  simp [Statement, encode, major]

theorem subn (x y : Reg) : Statement (.subn x y) := by
  simp [Statement, encode, major]

theorem shl (x y : Reg) : Statement (.shl x y) := by
  simp [Statement, encode, major]

theorem sneReg (x y : Reg) (n : Nibble) : Statement (.sneReg x y n) := by
  simp [Statement, encode, major]

theorem ldI (nnn : Addr) : Statement (.ldI nnn) := by
  simp [Statement, encode, major]

theorem jpV0 (nnn : Addr) : Statement (.jpV0 nnn) := by
  simp [Statement, encode, major]

theorem rnd (x : Reg) (kk : Byte) : Statement (.rnd x kk) := by
  simp [Statement, encode, major]

theorem drw (x y : Reg) (n : Nibble) : Statement (.drw x y n) := by
  simp [Statement, encode, major]

theorem skp (x : Reg) : Statement (.skp x) := by
  simp [Statement, encode, major]

theorem sknp (x : Reg) : Statement (.sknp x) := by
  simp [Statement, encode, major]

theorem ldVxDt (x : Reg) : Statement (.ldVxDt x) := by
  simp [Statement, encode, major]

theorem ldVxK (x : Reg) : Statement (.ldVxK x) := by
  simp [Statement, encode, major]

theorem ldDtVx (x : Reg) : Statement (.ldDtVx x) := by
  simp [Statement, encode, major]

theorem ldStVx (x : Reg) : Statement (.ldStVx x) := by
  simp [Statement, encode, major]

theorem addI (x : Reg) : Statement (.addI x) := by
  simp [Statement, encode, major]

theorem ldF (x : Reg) : Statement (.ldF x) := by
  simp [Statement, encode, major]

theorem ldB (x : Reg) : Statement (.ldB x) := by
  simp [Statement, encode, major]

theorem ldMemVx (x : Reg) : Statement (.ldMemVx x) := by
  simp [Statement, encode, major]

theorem ldVxMem (x : Reg) : Statement (.ldVxMem x) := by
  simp [Statement, encode, major]

end Sys2Proof.Laws.MajorOpcode
end

