-- ==== Sys2Proof/Laws/Words.lean ====
section
/-! SUPPORT. The words that claims write as numbers are the words of the encoder. -/

namespace Sys2Proof.Safety

theorem wordA_eq_encodeA (o : Nibble) (nnn : Addr) : wordA o.toNat nnn.toNat = encodeA o nnn := by
  have := o.isLt; have := nnn.isLt
  apply BitVec.eq_of_toNat_eq
  rw [toNat_encodeA, wordA, BitVec.toNat_ofNat]; omega

theorem wordRB_eq_encodeRB (o : Nibble) (x : Reg) (kk : Byte) : wordRB o.toNat x.val kk.toNat = encodeRB o x kk := by
  have := o.isLt; have := kk.isLt
  apply BitVec.eq_of_toNat_eq
  rw [toNat_encodeRB, wordRB, BitVec.toNat_ofNat]; omega

theorem wordRR_eq_encodeRRN (o : Nibble) (x y : Reg) (n : Nibble) :
    wordRR o.toNat x.val y.val n.toNat = encodeRRN o x y n := by
  have := o.isLt; have := n.isLt
  apply BitVec.eq_of_toNat_eq
  rw [toNat_encodeRRN, wordRR, BitVec.toNat_ofNat]; omega

end Sys2Proof.Safety
end

