-- ==== Sys2Proof/Tests/Slice0.lean ====
section
/-! SUPPORT. Tests whose expected results are those of spec/95_test_vectors.md (the vector's name stands in each docstring) or words written out from 30_encoding.md, and a witness for every obligation that has hypotheses. -/

namespace Sys2Proof.Tests

open Sys2Proof.Machine Sys2Proof.Safety

-- One test at a time: many at once hold more threads, each with its stack, than the memory limit allows.
set_option Elab.async false

/-! ### Small states -/

/-- The profile with every parameter at a value other than its default. -/
def otherProfile : Config where
  fontBase        := 0x50
  shiftSource     := .vy
  logicVfReset    := true
  loadStoreIndex  := .plusXPlus1
  jumpOffset      := .vx
  indexOverflowVf := true
  sysPolicy       := .illegal
  zeroHeight      := .nop
  oddTarget       := .allow
  lowNibble       := .strict
  keyIndex        := .fault
  fontDigit       := .unmasked
  lowWrite        := .allow

/-- The third value of `QUIRK_LOADSTORE_I`. -/
def plusXProfile : Config := { Config.default with loadStoreIndex := .plusX }

/-- The state `loadROM` leaves, under the default profile. -/
def start : State := { State.resetWith Config.default with loaded := true }

/-- The same under `otherProfile`. -/
def startOther : State := { State.resetWith otherProfile with loaded := true }

/-- The same under `plusXProfile`. -/
def startPlusX : State := { State.resetWith plusXProfile with loaded := true }

/-- The two states agree in every field but the display, whose comparison is slow. -/
def agree (s t : State) : Bool :=
  decide (s.v = t.v ∧ s.i = t.i ∧ s.pc = t.pc ∧ s.stack = t.stack ∧ s.sp = t.sp ∧ s.dt = t.dt ∧ s.st = t.st ∧
    s.key = t.key ∧ s.run = t.run ∧ s.waitReg = t.waitReg ∧ s.fault = t.fault ∧ s.loaded = t.loaded ∧ s.mem = t.mem ∧
    s.cfg = t.cfg ∧ s.draws = t.draws)

/-- One step on the word `w` placed at `pc` gives the state before it with `f` applied, and nothing else. -/
def gives (w : Nat) (s : State) (f : State → State) : Bool :=
  agree (afterStep (s.withFetchWord 16 w)) (f (s.withFetchWord 16 w))

/-- The display after one step on the word `w` is `d`. -/
def shows (w : Nat) (s : State) (d : Display) : Bool := decide ((afterStep (s.withFetchWord 16 w)).disp = d)

/-- One step on the word `w` placed at `pc` is the fatal error `e`. -/
def fatal (w : Nat) (s : State) (e : Fault) : Bool :=
  gives w s (haltedWith e) && decide (stepReply (s.withFetchWord 16 w) = .fatal (some e))

/-- The pixels that are true after one step on the word `w`. -/
def pixelsAfter (w : Nat) (s : State) : List (Fin 64 × Fin 32) :=
  let d := (afterStep (s.withFetchWord 16 w)).disp
  (List.finRange 64).flatMap fun c => ((List.finRange 32).filter fun r => pixel d c r).map fun r => (c, r)

/-- A depth, a top entry. -/
def withTop (s : State) (k : Fin 16) (a : Word) : State :=
  s.setStack (s.stack.set k.val a) ⟨k.val + 1, by omega⟩

/-! ### What is no instruction (30_encoding.md R83, R86) -/

theorem test_no_sys_at_00E0 : (Instr.sys 0x0E0).wellFormed Config.default = false := by decide
theorem test_no_sys_at_00EE : (Instr.sys 0x0EE).wellFormed Config.default = false := by decide
theorem test_strict_refuses_5121 : (Instr.seReg 1 2 1).wellFormed otherProfile = false := by decide
theorem test_strict_refuses_912F : (Instr.sneReg 1 2 0xF).wellFormed otherProfile = false := by decide
theorem test_ignore_accepts_5121 : (Instr.seReg 1 2 1).wellFormed Config.default = true := by decide

/-! ### Decoding: a word of every constructor, written out field by field from 30_encoding.md R83 to R87 -/

theorem test_decode_control :
    decode Config.default 0b0000_0001_0010_0011 = some (.sys 0x123) ∧
    decode Config.default 0b0000_0000_1110_1110 = some .ret ∧
    decode Config.default 0b0001_0011_0100_0101 = some (.jp 0x345) ∧
    decode Config.default 0b0010_1010_1011_1100 = some (.call 0xABC) ∧
    decode Config.default 0b1011_1111_0000_0001 = some (.jpV0 0xF01) ∧
    decode Config.default 0b0011_0101_1110_0001 = some (.seImm 5 0xE1) ∧
    decode Config.default 0b0100_1010_0001_1000 = some (.sneImm 10 0x18) ∧
    decode Config.default 0b0101_0011_1100_0000 = some (.seReg 3 12 0) ∧
    decode Config.default 0b0101_0001_0010_0001 = some (.seReg 1 2 1) ∧
    decode Config.default 0b1001_1110_0111_0000 = some (.sneReg 14 7 0) := by decide

theorem test_decode_alu :
    decode Config.default 0b0110_1010_0000_0010 = some (.ldImm 10 0x02) ∧
    decode Config.default 0b0111_0010_1111_1110 = some (.addImm 2 0xFE) ∧
    decode Config.default 0b1000_0001_0010_0000 = some (.ldReg 1 2) ∧
    decode Config.default 0b1000_0001_0010_0001 = some (.orReg 1 2) ∧
    decode Config.default 0b1000_0001_0010_0010 = some (.andReg 1 2) ∧
    decode Config.default 0b1000_0001_0010_0011 = some (.xorReg 1 2) ∧
    decode Config.default 0b1000_0001_0010_0100 = some (.addReg 1 2) ∧
    decode Config.default 0b1000_0001_0010_0101 = some (.sub 1 2) ∧
    decode Config.default 0b1000_0001_0010_0110 = some (.shr 1 2) ∧
    decode Config.default 0b1000_0001_0010_0111 = some (.subn 1 2) ∧
    decode Config.default 0b1000_0001_0010_1110 = some (.shl 1 2) ∧
    decode Config.default 0b1100_1001_0101_1010 = some (.rnd 9 0x5A) := by decide

theorem test_decode_index :
    decode Config.default 0b1010_0010_1111_0000 = some (.ldI 0x2F0) ∧
    decode Config.default 0b1111_0011_0001_1110 = some (.addI 3) ∧
    decode Config.default 0b1111_0100_0010_1001 = some (.ldF 4) ∧
    decode Config.default 0b1111_0001_0011_0011 = some (.ldB 1) ∧
    decode Config.default 0b1111_0010_0101_0101 = some (.ldMemVx 2) ∧
    decode Config.default 0b1111_1111_0110_0101 = some (.ldVxMem 15) := by decide

theorem test_decode_display :
    decode Config.default 0b0000_0000_1110_0000 = some .cls ∧
    decode Config.default 0b1101_0010_1110_1111 = some (.drw 2 14 15) ∧
    decode Config.default 0b1101_0000_0001_0000 = some (.drw 0 1 0) := by decide

theorem test_decode_timers_keys :
    decode Config.default 0b1110_0010_1001_1110 = some (.skp 2) ∧
    decode Config.default 0b1110_0111_1010_0001 = some (.sknp 7) ∧
    decode Config.default 0b1111_0101_0000_0111 = some (.ldVxDt 5) ∧
    decode Config.default 0b1111_0011_0000_1010 = some (.ldVxK 3) ∧
    decode Config.default 0b1111_0101_0001_0101 = some (.ldDtVx 5) ∧
    decode Config.default 0b1111_1101_0001_1000 = some (.ldStVx 13) := by decide

/-- A27, C25, K6, S8 and R88. -/
theorem test_decode_illegal :
    decode Config.default 0x8128 = none ∧ decode Config.default 0x812F = none ∧ decode otherProfile 0x5121 = none ∧
    decode Config.default 0xE0FF = none ∧ decode Config.default 0xFFFF = none ∧ decode Config.default 0xF000 = none := by
  decide

/-- R90: a line of each kind of operand. -/
theorem test_assemble :
    assemble (.instr .DRW [.reg 0, .reg 1, .nibble 5]) = some [0xD0, 0x15] ∧
    assemble (.instr .LD [.reg 10, .byte 0x0B]) = some [0x6A, 0x0B] := by decide

/-! ### Reset and the host -/

/-- D2 of 90_conflicts.md and R54: digit 0 at FONT_BASE; 0 outside the font (R55). -/
theorem test_reset_memory :
    Memory.wf State.reset.cfg State.reset.mem = true ∧ State.reset.readByte 0 = 0xF0 ∧
    State.reset.readByte 1 = 0x90 ∧ State.reset.readByte 0x4F = 0x80 ∧ State.reset.readByte 0x50 = 0 ∧
    State.reset.readByte 0x200 = 0 := by decide

/-- H1. -/
theorem test_step_before_load :
    agree (afterStep State.reset) State.reset = true ∧ stepReply State.reset = .notLoaded := by decide +kernel

/-- S6: the image 6A 02. -/
theorem test_load_and_step :
    stepReply (loadROM [0x6A, 0x02] State.reset) = .advanced ∧
    (afterStep (loadROM [0x6A, 0x02] State.reset)).reg 10 = 2 ∧
    (afterStep (loadROM [0x6A, 0x02] State.reset)).pc = 0x202 := by decide +kernel

/-- S8. -/
theorem test_illegal_word_halts : fatal 0xFFFF start (.illegalOpcode 0xFFFF) = true := by decide +kernel

/-- S8: the second step repeats the error. -/
theorem test_halted_repeats :
    agree (afterStep (haltedWith (.illegalOpcode 0xFFFF) start)) (haltedWith (.illegalOpcode 0xFFFF) start) = true ∧
    stepReply (haltedWith (.illegalOpcode 0xFFFF) start) = .fatal (some (.illegalOpcode 0xFFFF)) := by decide +kernel

/-- C28, its second step. -/
theorem test_fetch_out_of_bounds :
    stepReply (start.setPc 0x1000) = .fatal (some (.fetchOutOfBounds 0x1000)) ∧
    agree (afterStep (start.setPc 0x1000)) (haltedWith (.fetchOutOfBounds 0x1000) (start.setPc 0x1000)) = true := by decide +kernel

/-- T4 and T5. -/
theorem test_tick :
    agree (tickTimers (start.setSound 5)) (start.setSound 4) = true ∧
    agree (tickTimers (haltedWith (.illegalOpcode 0xFFFF) (start.setDelay 3)))
      (haltedWith (.illegalOpcode 0xFFFF) (start.setDelay 2)) = true := by decide +kernel

/-- S10. -/
theorem test_set_key :
    agree (setKey 16 true start) start = true ∧ hostReply (.setKey 16 true) start = .invalidKeyIndex ∧
    (setKey 15 true start).key[15] = true := by decide +kernel

/-- S9 and H2. -/
theorem test_load_too_large :
    hostReply (.loadROM (List.replicate 3585 0)) start = .loadError ∧
    hostReply (.loadROM (List.replicate 3584 0)) start = .ok ∧
    agree (loadROM (List.replicate 3585 0) start) State.reset = true := by decide +kernel

/-! ### Control transfer and skips -/

/-- C17 and C18. -/
theorem test_sys : gives 0x0123 start (·.setPc 0x202) = true ∧
    fatal 0x0123 startOther (.illegalOpcode 0x0123) = true := by decide +kernel
/-- C11. -/
theorem test_ret : gives 0x00EE ((withTop start 0 0x204).setPc 0x300)
    (fun s => (s.setStack s.stack 0).setPc 0x204) = true := by decide +kernel
/-- C12: the pop is undone. -/
theorem test_ret_out_of_bounds : fatal 0x00EE (withTop start 0 0x1000) (.outOfBounds 0x1000) = true := by decide +kernel
/-- C4. -/
theorem test_jp_odd_allowed : gives 0x1301 startOther (·.setPc 0x301) = true := by decide +kernel
/-- C2 and C3. -/
theorem test_jp_fatal : fatal 0x1FFF start (.outOfBounds 0x0FFF) = true ∧
    fatal 0x1301 start (.misalignedTarget 0x0301) = true := by decide +kernel
/-- C8, the 16th call. -/
theorem test_call : gives 0x2400 (start.setStack start.stack 15) (fun _ =>
    (withTop (start.withFetchWord 16 0x2400) 15 0x202).setPc 0x400) = true := by decide +kernel
/-- C7 and C9: the push is undone. -/
theorem test_call_fatal : fatal 0x2FFF start (.outOfBounds 0x0FFF) = true ∧
    fatal 0x2400 (start.setStack start.stack 16) .stackOverflow = true := by decide +kernel
/-- C16. -/
theorem test_jpV0_vx : gives 0xB220 (startOther.setReg 2 4) (·.setPc 0x224) = true := by decide +kernel
/-- C14 and C15. -/
theorem test_jpV0_fatal : fatal 0xBF00 (start.setReg 0 0xFF) (.outOfBounds 0x0FFF) = true ∧
    fatal 0xB300 (start.setReg 0 1) (.misalignedTarget 0x0301) = true := by decide +kernel
/-- C19 and C20. -/
theorem test_seImm : gives 0x3310 (start.setReg 3 0x10) (·.setPc 0x204) = true ∧
    gives 0x3310 (start.setReg 3 0x11) (·.setPc 0x202) = true := by decide +kernel
/-- C21 and C22. -/
theorem test_sneImm : gives 0x4310 (start.setReg 3 0x10) (·.setPc 0x202) = true ∧
    gives 0x4310 (start.setReg 3 0x11) (·.setPc 0x204) = true := by decide +kernel
/-- C24. -/
theorem test_seReg : gives 0x5121 ((start.setReg 1 7).setReg 2 7) (·.setPc 0x204) = true := by decide +kernel
/-- C25. -/
theorem test_seReg_strict : fatal 0x5121 startOther (.illegalOpcode 0x5121) = true := by decide +kernel
/-- C26 and C27. -/
theorem test_sneReg : gives 0x9120 ((start.setReg 1 7).setReg 2 8) (·.setPc 0x204) = true ∧
    gives 0x9110 (start.setReg 1 7) (·.setPc 0x202) = true := by decide +kernel

/-! ### Register and arithmetic -/

/-- A1. -/
theorem test_ldImm : gives 0x6F42 start (fun s => (s.setReg 15 0x42).setPc 0x202) = true := by decide +kernel
/-- A2 and A3. -/
theorem test_addImm : gives 0x7203 ((start.setReg 2 0xFE).setReg 15 5) (fun s => (s.setReg 2 1).setPc 0x202) = true ∧
    gives 0x7F01 (start.setReg 15 0xFF) (fun s => (s.setReg 15 0).setPc 0x202) = true := by decide +kernel
/-- A4. -/
theorem test_ldReg : gives 0x8120 (start.setReg 2 0x33) (fun s => (s.setReg 1 0x33).setPc 0x202) = true := by
  decide +kernel
/-- A5 and A6. -/
theorem test_or :
    gives 0x8121 (((start.setReg 1 0x0C).setReg 2 0x0A).setReg 15 1) (fun s => (s.setReg 1 0x0E).setPc 0x202) = true ∧
    gives 0x8121 (((startOther.setReg 1 0x0C).setReg 2 0x0A).setReg 15 1)
      (fun s => ((s.setReg 1 0x0E).setReg 15 0).setPc 0x202) = true := by decide +kernel
/-- A7. -/
theorem test_and : gives 0x8122 ((start.setReg 1 0x0C).setReg 2 0x0A) (fun s => (s.setReg 1 0x08).setPc 0x202) = true := by
  decide +kernel
/-- A8 and A9. -/
theorem test_xor :
    gives 0x8123 ((start.setReg 1 0x0C).setReg 2 0x0A) (fun s => (s.setReg 1 0x06).setPc 0x202) = true ∧
    gives 0x8113 (start.setReg 1 0x5A) (fun s => (s.setReg 1 0).setPc 0x202) = true := by decide +kernel
/-- A10. -/
theorem test_add_carries : gives 0x8124 ((start.setReg 1 0xFF).setReg 2 2)
    (fun s => ((s.setReg 1 1).setReg 15 1).setPc 0x202) = true := by decide +kernel
/-- A13 and A14: VF is destination and source. -/
theorem test_add_to_flag :
    gives 0x8F14 ((start.setReg 15 0x10).setReg 1 0x20) (fun s => (s.setReg 15 0).setPc 0x202) = true ∧
    gives 0x8F14 ((start.setReg 15 0x80).setReg 1 0x80) (fun s => (s.setReg 15 1).setPc 0x202) = true := by decide +kernel
/-- A15 and A17. -/
theorem test_sub :
    gives 0x8125 ((start.setReg 1 5).setReg 2 7) (fun s => ((s.setReg 1 0xFE).setReg 15 0).setPc 0x202) = true ∧
    gives 0x8125 ((start.setReg 1 5).setReg 2 5) (fun s => ((s.setReg 1 0).setReg 15 1).setPc 0x202) = true := by
  decide +kernel
/-- A18. -/
theorem test_sub_to_flag : gives 0x8F15 ((start.setReg 15 3).setReg 1 5) (fun s => (s.setReg 15 0).setPc 0x202) = true := by
  decide +kernel
/-- A19 and A20. -/
theorem test_subn :
    gives 0x8127 ((start.setReg 1 5).setReg 2 7) (fun s => ((s.setReg 1 2).setReg 15 1).setPc 0x202) = true ∧
    gives 0x8127 ((start.setReg 1 7).setReg 2 5) (fun s => ((s.setReg 1 0xFE).setReg 15 0).setPc 0x202) = true := by
  decide +kernel
/-- A22: the source is `V[y]`, which stays. -/
theorem test_shr_vy : gives 0x8126 (startOther.setReg 2 5)
    (fun s => ((s.setReg 1 2).setReg 15 1).setPc 0x202) = true := by decide +kernel
/-- A21 and A23. -/
theorem test_shr : gives 0x8106 (start.setReg 1 5) (fun s => ((s.setReg 1 2).setReg 15 1).setPc 0x202) = true ∧
    gives 0x8F06 (start.setReg 15 2) (fun s => (s.setReg 15 0).setPc 0x202) = true := by decide +kernel
/-- A26. -/
theorem test_shl_vy : gives 0x812E ((startOther.setReg 1 1).setReg 2 0x80)
    (fun s => ((s.setReg 1 0).setReg 15 1).setPc 0x202) = true := by decide +kernel
/-- A24 and A25. -/
theorem test_shl : gives 0x810E (start.setReg 1 0x81) (fun s => ((s.setReg 1 2).setReg 15 1).setPc 0x202) = true ∧
    gives 0x810E (start.setReg 1 0x40) (fun s => ((s.setReg 1 0x80).setReg 15 0).setPc 0x202) = true := by decide +kernel
/-- A28, for whatever byte is drawn. -/
theorem test_rnd : (afterStep (start.withFetchWord 16 0xC10F)).reg 1 = Config.draw8 0 &&& 0x0F := rfl

/-! ### Index register and memory -/

/-- M1. -/
theorem test_ldI : gives 0xA2F0 start (fun s => (s.setIndex 0x02F0).setPc 0x202) = true := by decide +kernel
/-- M2 and M5. -/
theorem test_addI :
    gives 0xF31E ((start.setIndex 0x0FF8).setReg 3 0x10) (fun s => (s.setIndex 0x1008).setPc 0x202) = true ∧
    gives 0xF11E ((start.setIndex 0xFFFF).setReg 1 1) (fun s => (s.setIndex 0).setPc 0x202) = true := by decide +kernel
/-- M3 and M4. -/
theorem test_addI_flag :
    gives 0xF31E ((startOther.setIndex 0x0FF8).setReg 3 0x10)
      (fun s => ((s.setIndex 0x1008).setReg 15 1).setPc 0x202) = true ∧
    gives 0xF31E (((startOther.setIndex 0x0100).setReg 3 0x10).setReg 15 7)
      (fun s => ((s.setIndex 0x0110).setReg 15 0).setPc 0x202) = true := by decide +kernel
/-- M6 and M7. -/
theorem test_ldF : gives 0xF429 (start.setReg 4 0x0B) (fun s => (s.setIndex 0x0037).setPc 0x202) = true ∧
    gives 0xF429 (start.setReg 4 0x1A) (fun s => (s.setIndex 0x0032).setPc 0x202) = true := by decide +kernel
/-- M8 with M9: 50 + 5 * 1A. -/
theorem test_ldF_unmasked : gives 0xF429 (startOther.setReg 4 0x1A) (fun s => (s.setIndex 0x00D2).setPc 0x202) = true := by
  decide +kernel
/-- M10 and M16: the base is the low 12 bits of `I`. -/
theorem test_ldB : gives 0xF133 ((start.setReg 1 0xFE).setIndex 0x1300)
    (fun s => (((s.writeByte 0x300 2).writeByte 0x301 5).writeByte 0x302 4).setPc 0x202) = true := by decide +kernel
/-- M13 and M17: nothing is written. -/
theorem test_ldB_fatal :
    fatal 0xF133 ((start.setReg 1 0xFE).setIndex 0x0FFE) (.outOfBounds 0x1000) = true ∧
    fatal 0xF133 ((start.setReg 1 0xFE).setIndex 0x01FF) (.protectedWrite 0x1FF) = true := by decide +kernel

/-- `V0..V2 = 01 02 03`, `I = 0300`, the start of M18 to M20. -/
def dumpStart (s : State) : State := (((s.setReg 0 1).setReg 1 2).setReg 2 3).setIndex 0x300

/-- M18, M19 and M20. -/
theorem test_ldMemVx :
    gives 0xF255 (dumpStart start)
      (fun s => (((s.writeByte 0x300 1).writeByte 0x301 2).writeByte 0x302 3).setPc 0x202) = true ∧
    gives 0xF255 (dumpStart startOther)
      (fun s => ((((s.writeByte 0x300 1).writeByte 0x301 2).writeByte 0x302 3).setIndex 0x303).setPc 0x202) = true ∧
    gives 0xF255 (dumpStart startPlusX)
      (fun s => ((((s.writeByte 0x300 1).writeByte 0x301 2).writeByte 0x302 3).setIndex 0x302).setPc 0x202) = true := by
  decide +kernel
/-- M22 and M23. -/
theorem test_ldMemVx_fatal :
    fatal 0xFF55 ((start.setReg 15 0xEE).setIndex 0x0FF1) (.outOfBounds 0x1000) = true ∧
    fatal 0xF155 (((start.setReg 0 1).setReg 1 2).setIndex 0x01FF) (.protectedWrite 0x1FF) = true := by decide +kernel
/-- M24 and M25. -/
theorem test_ldVxMem :
    gives 0xF165 ((start.loadBytes 0x300 [0xAA, 0xBB]).setIndex 0x300)
      (fun s => ((s.setReg 0 0xAA).setReg 1 0xBB).setPc 0x202) = true ∧
    gives 0xF065 start (fun s => (s.setReg 0 0xF0).setPc 0x202) = true := by decide +kernel
/-- M27: no register is written. -/
theorem test_ldVxMem_fatal : fatal 0xF165 (start.setIndex 0x0FFF) (.outOfBounds 0x1000) = true := by decide +kernel

/-! ### Display -/

/-- D1. -/
theorem test_cls :
    gives 0x00E0 (start.setDisplay (setPixel (setPixel start.disp 0 0 true) 63 31 true)) (·.setPc 0x202) = true ∧
    shows 0x00E0 (start.setDisplay (setPixel (setPixel start.disp 0 0 true) 63 31 true)) start.disp = true := by decide +kernel
/-- D6: wrap on both axes. -/
theorem test_drw_wraps :
    pixelsAfter 0xD015 ((start.setReg 0 0x3E).setReg 1 0x1E) =
      [(0, 2), (0, 30), (1, 0), (1, 1), (1, 2), (1, 30), (1, 31), (62, 0), (62, 1), (62, 2), (62, 30), (62, 31), (63, 2),
        (63, 30)] := by decide +kernel
/-- D4, its first draw, and D8: the coordinate is read before the flag is written. -/
theorem test_drw_flag :
    gives 0xD011 (((start.setIndex 0x300).writeByte 0x300 0x80).setDisplay (setPixel start.disp 0 0 true))
      (fun s => (s.setReg 15 1).setPc 0x202) = true ∧
    shows 0xD011 (((start.setIndex 0x300).writeByte 0x300 0x80).setDisplay (setPixel start.disp 0 0 true))
      start.disp = true ∧
    gives 0xDF01 (((start.setReg 15 8).setIndex 0x300).writeByte 0x300 0x80)
      (fun s => (s.setReg 15 0).setPc 0x202) = true ∧
    shows 0xDF01 (((start.setReg 15 8).setIndex 0x300).writeByte 0x300 0x80) (setPixel start.disp 8 0 true) = true := by
  decide +kernel
/-- D9, D10 and D11. -/
theorem test_drw_edges :
    fatal 0xD010 start (.illegalOpcode 0xD010) = true ∧
    gives 0xD010 (startOther.setReg 15 1) (fun s => (s.setReg 15 0).setPc 0x202) = true ∧
    fatal 0xD013 ((start.setIndex 0x0FFE).setReg 15 5) (.outOfBounds 0x1000) = true := by decide +kernel

/-! ### Timers and keys -/

/-- T1. -/
theorem test_ldVxDt : gives 0xF507 (start.setDelay 0x3C) (fun s => (s.setReg 5 0x3C).setPc 0x202) = true := by
  decide +kernel
/-- T2. -/
theorem test_ldDtVx : gives 0xF515 (start.setReg 5 0x3C) (fun s => (s.setDelay 0x3C).setPc 0x202) = true := by
  decide +kernel
/-- T3, its step. -/
theorem test_ldStVx : gives 0xF518 (start.setReg 5 2) (fun s => (s.setSound 2).setPc 0x202) = true := by decide +kernel
/-- K2 and K4: the index is masked to 5. -/
theorem test_skp : gives 0xE29E (start.setReg 2 5) (·.setPc 0x202) = true ∧
    gives 0xE29E (setKey 5 true (start.setReg 2 0x15)) (·.setPc 0x204) = true := by decide +kernel
/-- K5. -/
theorem test_skp_fault : fatal 0xE29E (startOther.setReg 2 0x15) (.badOperand 0xE29E) = true := by decide +kernel
/-- K3. -/
theorem test_sknp : gives 0xE2A1 (start.setReg 2 5) (·.setPc 0x204) = true ∧
    gives 0xE2A1 (setKey 5 true (start.setReg 2 5)) (·.setPc 0x202) = true := by decide +kernel
/-- K7. -/
theorem test_ldVxK : gives 0xF30A (setKey 9 true start)
    (fun s => ((s.setWaitReg 3).setRun .awaitingKey).setPc 0x202) = true := by decide +kernel

/-- The machine after K7, but with no key pressed. -/
def waiting : State := (start.setWaitReg 3).setRun .awaitingKey

/-- K8: the least key. -/
theorem test_key_wait : agree (afterStep (setKey 4 true (setKey 2 true (setKey 9 true waiting))))
    (((setKey 4 true (setKey 2 true (setKey 9 true waiting))).setReg 3 2).setRun .running) = true := by decide +kernel
/-- K9. -/
theorem test_key_wait_without_key : agree (afterStep waiting) waiting = true ∧ stepReply waiting = .awaitingKey := by decide +kernel

/-! ### Witnesses: states and operands that meet the hypotheses of the obligations, clause by clause, at the edges -/

theorem witness_DecodeOfEncodeIsTheInstruction :
    (Instr.sys 0x0EF).wellFormed otherProfile = true ∧ (Instr.seReg 1 2 0).wellFormed otherProfile = true ∧
    (Instr.drw 15 15 15).wellFormed otherProfile = true := by decide

theorem witness_EncodeOfDecodeIsTheWord :
    decode otherProfile 0x00EE = some .ret ∧ decode Config.default 0x5121 = some (.seReg 1 2 1) := by decide

theorem witness_AssemblerFormsStandForTheirInstruction :
    otherProfile.lowNibble = .strict ∧ (Instr.seReg 1 2 0).wellFormed otherProfile = true := by decide

/-- LD VA, 02 at the last address that can be fetched. -/
theorem witness_StepExecutesTheDecodedInstruction :
    ((start.setPc 0xFFE).withFetchWord 16 0x6A02).loaded = true ∧
    ((start.setPc 0xFFE).withFetchWord 16 0x6A02).run = .running ∧
    ((start.setPc 0xFFE).withFetchWord 16 0x6A02).pc.toNat = 0xFFE ∧
    decodeBytes Config.default [((start.setPc 0xFFE).withFetchWord 16 0x6A02).readByte 0xFFE,
      ((start.setPc 0xFFE).withFetchWord 16 0x6A02).readByte 0xFFF] = some (.ldImm 10 2, []) := by decide +kernel

theorem witness_PlacedWordIsTheNextInstruction :
    decode (start.setPc 0xFFF).cfg (BitVec.ofNat 16 0x6A02) = some (.ldImm 10 2) := by decide +kernel

theorem witness_FetchReadsTheBigEndianWordOrFails :
    (0xFFF < (start.setPc 0xFFF).pc.toNat + 1 ∧ start.loaded = true ∧ start.run = .running) ∧
    (start.setPc 0xFFE).pc.toNat + 1 ≤ 0xFFF := by decide +kernel

theorem witness_IllegalWordHaltsWithTheRawWord :
    (start.withFetchWord 16 0xFFFF).loaded = true ∧ (start.withFetchWord 16 0xFFFF).run = .running ∧
    fetch (start.withFetchWord 16 0xFFFF) = .ok 0xFFFF ∧ decode start.cfg 0xFFFF = none :=
  ⟨rfl, rfl, rfl, by decide⟩

theorem witness_StepBeforeLoadChangesNothing :
    State.reset.loaded = false ∧ (List.replicate 3584 (0 : Byte)).length ≤ 3584 := by decide +kernel

theorem witness_HaltedStepRepeatsTheRecord :
    (haltedWith .stackUnderflow start).loaded = true ∧ (haltedWith .stackUnderflow start).run = .halted := by decide

theorem witness_FatalStepUndoesEveryWrite :
    (start.setPc 0xFFF).loaded = true ∧ (start.setPc 0xFFF).run = .running ∧
    step (start.setPc 0xFFF) = .next (haltedWith (.fetchOutOfBounds 0xFFF) (start.setPc 0xFFF)) ∧
    (haltedWith (.fetchOutOfBounds 0xFFF) (start.setPc 0xFFF)).run = .halted := ⟨rfl, rfl, rfl, rfl⟩

/-- No key; then key F alone, and key 0 with others. -/
theorem witness_KeyWaitStepTakesTheLeastKey :
    waiting.loaded = true ∧ waiting.run = .awaitingKey ∧ (∀ k : Fin 16, waiting.key[k.val] = false) ∧
    ((setKey 15 true waiting).key[15] = true ∧ ∀ j : Fin 16, j.val < 15 → (setKey 15 true waiting).key[j.val] = false) ∧
    ((setKey 0 true (setKey 7 true waiting)).key[0] = true ∧
      ∀ j : Fin 16, j.val < 0 → (setKey 0 true (setKey 7 true waiting)).key[j.val] = false) := by decide +kernel

theorem witness_RunStateMovesOnlyAsAllowed :
    (step (start.withFetchWord 16 0xF30A) = .next (((start.withFetchWord 16 0xF30A).setPc 0x202).setWaitReg 3 |>.setRun .awaitingKey) ∧
      (start.withFetchWord 16 0xF30A).run ≠ .awaitingKey) ∧
    (step (setKey 9 true waiting) = .next (((setKey 9 true waiting).setReg 3 9).setRun .running) ∧
      (setKey 9 true waiting).run = .awaitingKey ∧ (((setKey 9 true waiting).setReg 3 9).setRun .running).run ≠ .awaitingKey) ∧
    (step (haltedWith .stackUnderflow start) = .next (haltedWith .stackUnderflow start) ∧
      (haltedWith .stackUnderflow start).run = .halted) :=
  ⟨⟨rfl, by decide⟩, ⟨rfl, rfl, by decide⟩, rfl, rfl⟩

theorem witness_StepKeepsHostOwnedState :
    step (start.withFetchWord 16 0x00E0) =
      .next (((start.withFetchWord 16 0x00E0).setPc 0x202).setDisplay clearDisplay) := rfl

/-- One instruction for each clause, and the state in which it writes the piece. -/
theorem witness_OnlyNamedInstructionsWriteEachPiece :
    (∃ t, exec (.ldI 5) start = .next t ∧ t.i ≠ start.i) ∧
    (∃ t, exec (.ldMemVx 0) (startOther.setIndex 0x300) = .next t ∧ t.i ≠ (startOther.setIndex 0x300).i) ∧
    (∃ t, exec (.call 0x400) start = .next t ∧ (t.stack ≠ start.stack ∨ t.sp ≠ start.sp)) ∧
    (∃ t, exec (.ldDtVx 1) (start.setReg 1 9) = .next t ∧ t.dt ≠ (start.setReg 1 9).dt) ∧
    (∃ t, exec (.ldStVx 1) (start.setReg 1 9) = .next t ∧ t.st ≠ (start.setReg 1 9).st) ∧
    (∃ t, exec (.drw 0 0 1) start = .next t ∧ t.disp ≠ start.disp) ∧
    (∃ t, exec (.ldVxK 1) start = .next t ∧ t.run ≠ start.run) ∧
    (∃ t, exec (.ldB 1) ((start.setReg 1 9).setIndex 0x300) = .next t ∧
      ∃ a : Nat, t.readByte a ≠ ((start.setReg 1 9).setIndex 0x300).readByte a) ∧
    (∃ t, exec (.rnd 1 0xFF) start = .next t ∧ t.draws ≠ start.draws) :=
  ⟨⟨_, rfl, by decide +kernel⟩, ⟨_, rfl, by decide +kernel⟩, ⟨_, rfl, by decide +kernel⟩, ⟨_, rfl, by decide +kernel⟩,
    ⟨_, rfl, by decide +kernel⟩, ⟨_, rfl, by decide +kernel⟩, ⟨_, rfl, by decide +kernel⟩,
    ⟨_, rfl, 0x302, by decide +kernel⟩, ⟨_, rfl, by decide +kernel⟩⟩

theorem witness_OnlyNamedInstructionsReadEachPiece :
    ∃ t, exec .cls start = .next t ∧ (∀ x, Instr.cls ≠ .addI x) ∧ (∀ x, Instr.cls ≠ .ldB x) ∧
      (∀ x, Instr.cls ≠ .ldMemVx x) ∧ (∀ x, Instr.cls ≠ .ldVxMem x) ∧ (∀ x y n, Instr.cls ≠ .drw x y n) ∧
      (∀ x, Instr.cls ≠ .ldVxDt x) ∧ (∀ x, Instr.cls ≠ .skp x) ∧ (∀ x, Instr.cls ≠ .sknp x) :=
  ⟨_, rfl, by simp⟩

/-- A state with a listed cell and two live return addresses, one of them the greatest. -/
def nested : State := (withTop (withTop start 0 0x202) 1 0x1000).writeByte 0x300 0x12

theorem inv_nested : Inv nested where
  memory := by decide +kernel
  record := by decide +kernel
  unloaded := by decide +kernel
  pcBound := by decide +kernel
  pcEven := by decide +kernel
  stackBound := by decide +kernel
  stackEven := by decide +kernel
  lowRegion := by
    intro _ a ha
    have h : a ≠ 0x300 := by omega
    exact Memory.read_write_other Config.default [] 0x12 h

theorem witness_StepKeepsTheInvariant :
    Inv nested ∧ step nested = .next (nested.setPc 0x202) := ⟨inv_nested, rfl⟩

theorem witness_HostRunsKeepTheInvariant : Inv nested := inv_nested

theorem witness_CanonicalMemoriesThatReadAlikeAreEqual :
    Memory.wf Config.default nested.mem = true ∧ nested.mem ≠ [] := by decide +kernel

theorem witness_ResetIsIdempotent : (start.setPc 0x400).cfg = start.cfg ∧ (start.setPc 0x400).draws = start.draws :=
  ⟨rfl, rfl⟩

theorem witness_LoadPutsTheImageOrRejectsIt :
    4096 < (List.replicate 3585 (0 : Byte)).length + 0x200 ∧ (List.replicate 3584 (0 : Byte)).length + 0x200 ≤ 4096 := by
  decide +kernel

theorem witness_TickTakesOneOffEachTimer :
    (0 < (start.setDelay 0xFF).dt.toNat ∧ (start.setDelay 0xFF).st = 0) ∧
    (0 < (start.setSound 1).st.toNat ∧ (start.setSound 1).dt = 0) := by decide +kernel

theorem witness_SetKeyWritesOneLatchBit : 0xF < 16 ∧ ((15 : Fin 16).val = 15 ∧ (14 : Fin 16) ≠ 15) ∧ (0 : Fin 16).val = 0 := by
  decide

theorem witness_SysIsANoOpOrIllegal : ((0x0EF : Addr) ≠ 0x0E0 ∧ (0x0EF : Addr) ≠ 0x0EE) ∧ start.cfg.sysPolicy = .nop ∧ startOther.cfg.sysPolicy = .illegal := by decide

/-- Depth 0; depth 1 and 16 with the greatest valid target, the least invalid one, and an odd one under each policy. -/
theorem witness_ReturnPopsTheTarget :
    start.sp.val = 0 ∧
    ((withTop start 15 0xFFE).sp.val = (15 : Fin 16).val + 1 ∧
      validTarget start.cfg ((withTop start 15 0xFFE).stack[15]).toNat) ∧
    ((withTop startOther 0 0xFFD).sp.val = (0 : Fin 16).val + 1 ∧
      validTarget startOther.cfg ((withTop startOther 0 0xFFD).stack[0]).toNat) ∧
    0xFFE < ((withTop start 0 0xFFF).stack[0]).toNat ∧
    (((withTop start 0 0xFFD).stack[0]).toNat ≤ 0xFFE ∧ ((withTop start 0 0xFFD).stack[0]).toNat % 2 = 1 ∧
      start.cfg.oddTarget = .fault) := by unfold validTarget; decide +kernel

theorem witness_JumpGoesToTheTarget :
    validTarget start.cfg (0xFFE : Addr).toNat ∧ validTarget startOther.cfg (0xFFD : Addr).toNat ∧
    ((0xFFD : Addr) ≠ 0xFFF ∧ (0xFFD : Addr).toNat % 2 = 1 ∧ start.cfg.oddTarget = .fault) := by
  unfold validTarget; decide +kernel

theorem witness_CallPushesTheReturnAddress :
    (start.setStack start.stack 16).sp.val = 16 ∧ (start.setStack start.stack 15).sp.val = (15 : Fin 16).val ∧
    start.sp.val = (0 : Fin 16).val ∧ validTarget start.cfg (0xFFE : Addr).toNat ∧
    ((0x001 : Addr) ≠ 0xFFF ∧ (0x001 : Addr).toNat % 2 = 1 ∧ start.cfg.oddTarget = .fault) := by
  unfold validTarget; decide +kernel

/-- `V0 = FE` and `FF` past 0xF00: the greatest valid target and the least invalid one; V2 past 0x220 under `vx`. -/
theorem witness_JumpWithOffsetAddsTheRegister :
    (start.cfg.jumpOffset = .v0 ∧ (0 : Reg).val = 0 ∧
      0xFFE = (0xF00 : Addr).toNat + ((start.setReg 0 0xFE).reg 0).toNat ∧ validTarget start.cfg 0xFFE) ∧
    (startOther.cfg.jumpOffset = .vx ∧ (2 : Reg).val = (0x220 : Addr).toNat / 0x100 ∧
      0x224 = (0x220 : Addr).toNat + ((startOther.setReg 2 4).reg 2).toNat ∧ validTarget startOther.cfg 0x224) ∧
    (0xFFF = (0xF00 : Addr).toNat + ((start.setReg 0 0xFF).reg 0).toNat ∧ 0xFFE < 0xFFF) ∧
    (0xFFD = (0xF00 : Addr).toNat + ((start.setReg 0 0xFD).reg 0).toNat ∧ 0xFFD ≤ 0xFFE ∧ 0xFFD % 2 = 1 ∧
      start.cfg.oddTarget = .fault) := by unfold validTarget; decide +kernel

theorem witness_ReturnUndoesCall :
    ((start.setStack start.stack 15).setPc 0xFFC).sp.val < 16 ∧ validTarget start.cfg (0x400 : Addr).toNat ∧
    validTarget start.cfg (((start.setStack start.stack 15).setPc 0xFFC).pc + 2).toNat := by
  unfold validTarget; decide +kernel

theorem witness_SkipsCompareRegisters :
    (startOther.cfg.lowNibble = .strict ∧ (1 : Nibble) ≠ 0) ∧ start.cfg.lowNibble = .ignore := by decide

theorem witness_LogicWritesTheDestinationAndMaybeTheFlag :
    startOther.cfg.logicVfReset = true ∧ start.cfg.logicVfReset = false ∧ (1 : Reg) ≠ VF ∧
    (Instr.xorReg 1 2 = .xorReg 1 2 ∧ 3 = 0x3 ∧ 0x0C ^^^ 0x0A = ((start.setReg 1 0x0C).setReg 2 0x0A).reg 1 ^^^ ((start.setReg 1 0x0C).setReg 2 0x0A).reg 2) := by
  decide +kernel

theorem witness_AddReportsTheCarry : (14 : Reg) ≠ VF := by decide

theorem witness_SubtractReportsNoBorrow : (14 : Reg) ≠ VF := by decide

theorem witness_ShiftReportsTheBitShiftedOut :
    start.cfg.shiftSource = .vx ∧ startOther.cfg.shiftSource = .vy ∧ (1 : Reg) ≠ VF := by decide

theorem witness_RandomMasksTheDrawnByte : (0 : Byte) = 0 := rfl

theorem witness_IndexIsLoadedAndAdded :
    startOther.cfg.indexOverflowVf = true ∧ start.cfg.indexOverflowVf = false := by decide

theorem witness_IndexPointsAtTheFontDigit :
    start.cfg.fontDigit = .mask ∧ startOther.cfg.fontDigit = .unmasked := by decide

/-- The first and the last address a BCD store may have, the last protected byte, and one byte too far. -/
theorem witness_BcdStoresThreeDigits :
    storable start.cfg (ea 0x200 0) 3 ∧ storable start.cfg (ea 0xFFD 0) 3 ∧ storable startOther.cfg (ea 0x1000 0) 3 ∧
    (ea 0x1FF 0 < 0x200 ∧ start.cfg.lowWrite = .fault) ∧ 0xFFF < ea 0xFFE 2 := by
  unfold storable; decide +kernel

theorem witness_DumpStoresTheRegisters :
    storable start.cfg (ea 0xFF0 0) ((15 : Reg).val + 1) ∧ storable startOther.cfg (ea 0x000 0) ((0 : Reg).val + 1) ∧
    start.cfg.loadStoreIndex = .unchanged ∧ startOther.cfg.loadStoreIndex = .plusXPlus1 ∧
    startPlusX.cfg.loadStoreIndex = .plusX ∧ (ea 0x1FF 0 < 0x200 ∧ start.cfg.lowWrite = .fault) ∧
    0xFFF < ea 0xFF1 (15 : Reg).val := by unfold storable; decide +kernel

theorem witness_LoadFillsTheRegisters :
    ea 0xFF0 (15 : Reg).val ≤ 0xFFF ∧ ea 0xFFF (0 : Reg).val ≤ 0xFFF ∧ 0xFFF < ea 0xFFF (1 : Reg).val ∧
    startPlusX.cfg.loadStoreIndex = .plusX := by decide +kernel

theorem witness_SpriteIsXoredWithWrapAround : (List.replicate 15 (0xFF : Byte)).length ≤ 15 := by decide

theorem witness_DrawXorsTheBytesAtIndex :
    (15 : Nibble) ≠ 0 ∧ ea 0xFF1 ((15 : Nibble).toNat - 1) ≤ 0xFFF ∧ 0xFFF < ea 0xFF2 ((15 : Nibble).toNat - 1) ∧
    ea 0xFFF ((1 : Nibble).toNat - 1) ≤ 0xFFF := by decide +kernel

theorem witness_ZeroHeightDrawIsIllegalOrClearsTheFlag :
    start.cfg.zeroHeight = .illegal ∧ startOther.cfg.zeroHeight = .nop := by decide

/-- The start of D4: one sprite bit, and its pixel set. -/
def drawnOnce : State := ((start.setIndex 0x300).writeByte 0x300 0x80).setDisplay (setPixel start.disp 0 0 true)

theorem witness_DrawingTwiceRestoresTheDisplay :
    (1 : Nibble) ≠ 0 ∧ (0 : Reg) ≠ VF ∧ (1 : Reg) ≠ VF ∧ ea drawnOnce.i ((1 : Nibble).toNat - 1) ≤ 0xFFF ∧
    (∃ (c : Fin 64) (r : Fin 32), spriteBit (drawnOnce.reg 0) (drawnOnce.reg 1) 1 (fun k => drawnOnce.readByte (ea drawnOnce.i k)) c r = true) ∧
    (∀ (c : Fin 64) (r : Fin 32),
      spriteBit (drawnOnce.reg 0) (drawnOnce.reg 1) 1 (fun k => drawnOnce.readByte (ea drawnOnce.i k)) c r = true →
      pixel drawnOnce.disp c r = true) := by decide +kernel

/-- The greatest key number, the least operand above it under each policy. -/
theorem witness_KeySkipsTestTheLatch :
    ((start.setReg 1 0x0F).reg 1).toNat ≤ 0xF ∧ (15 : Fin 16).val = ((start.setReg 1 0x0F).reg 1).toNat % 16 ∧
    ((0 : Fin 16).val = ((start.setReg 1 0x10).reg 1).toNat % 16 ∧ start.cfg.keyIndex = .mask) ∧
    (0xF < ((startOther.setReg 1 0x10).reg 1).toNat ∧ startOther.cfg.keyIndex = .fault) := by decide +kernel

theorem witness_KeyWaitStartsWithoutCompleting :
    (start.withFetchWord 16 0xF30A).loaded = true ∧ (start.withFetchWord 16 0xF30A).run = .running ∧
    fetch (start.withFetchWord 16 0xF30A) = .ok 0xF30A ∧ decode start.cfg 0xF30A = some (.ldVxK 3) :=
  ⟨rfl, rfl, rfl, by decide⟩

end Sys2Proof.Tests
end

/-! SUPPORT and PROOFS for the statements about the state (10_state.md): what an instruction may write, where it goes on,
that it keeps the invariant, and what it does not read. -/

namespace Sys2Proof.Machine

open Sys2Proof.Safety

/-! ### Taking a meaning apart -/

/-- A sequence that succeeds is two operations that succeed. -/
theorem bind_eq_ok {α β : Type} {x : Except Fault α} {f : α → Except Fault β} {b : β} (h : (x >>= f) = .ok b) :
    ∃ a, x = .ok a ∧ f a = .ok b := by
  cases x with
  | error e => cases h
  | ok a => exact ⟨a, rfl, h⟩

theorem fault_or_ok {s t : State} {r : Except Fault State} (h : complete s r = .next t) :
    (∃ e, t = raiseFault e s) ∨ r = .ok t := by
  rcases complete_cases h with hr | ⟨e, _, ht⟩
  · exact .inr hr
  · exact .inl ⟨e, ht⟩

theorem fetch_ok_bound {s : State} {op : Word} (h : fetch s = .ok op) : s.pc.toNat ≤ 0xFFE := by
  by_contra hp
  rw [fetch_error (by omega)] at h; cases h

/-! ### The key wait (44_timers_input.md R217) -/

/-- Everything a step in AWAITING_KEY can do. -/
theorem keyWaitStep_cases (s : State) :
    keyWaitStep s = s ∨
    ∃ k : Reg, s.key[k.val] = true ∧ keyWaitStep s = (s.setReg s.waitReg (BitVec.ofNat 8 k.val)).setRun .running := by
  unfold keyWaitStep
  cases hk : leastKey s with
  | none => exact .inl rfl
  | some k => exact .inr ⟨k, by simpa using List.find?_some hk, rfl⟩

/-! ### Which instructions `mayChange` names for each piece of state -/

/-- What a frame lets change only under a flag, and what did change, has that flag. -/
theorem flag_of_ne {α : Type} {flag : Bool} {a b : α} (hkeep : flag = false → a = b) (hne : a ≠ b) : flag = true := by
  cases flag with
  | false => exact absurd (hkeep rfl) hne
  | true => rfl

theorem mayChange_index {i : Instr} {s : State} (h : (mayChange i s).index = true) :
    (∃ nnn, i = .ldI nnn) ∨ (∃ x, i = .addI x) ∨ (∃ x, i = .ldF x) ∨ ∃ x, i = .ldMemVx x ∨ i = .ldVxMem x := by
  cases i <;> simp_all [mayChange]

theorem mayChange_stack {i : Instr} {s : State} (h : (mayChange i s).stack = true) : i = .ret ∨ ∃ nnn, i = .call nnn := by
  cases i <;> simp_all [mayChange]

theorem mayChange_delay {i : Instr} {s : State} (h : (mayChange i s).delay = true) : ∃ x, i = .ldDtVx x := by
  cases i <;> simp_all [mayChange]

theorem mayChange_sound {i : Instr} {s : State} (h : (mayChange i s).sound = true) : ∃ x, i = .ldStVx x := by
  cases i <;> simp_all [mayChange]

theorem mayChange_display {i : Instr} {s : State} (h : (mayChange i s).display = true) :
    i = .cls ∨ ∃ x y n, i = .drw x y n := by
  cases i <;> simp_all [mayChange]

theorem mayChange_wait {i : Instr} {s : State} (h : (mayChange i s).wait = true) : ∃ x, i = .ldVxK x := by
  cases i <;> simp_all [mayChange]

theorem mayChange_draws {i : Instr} {s : State} (h : (mayChange i s).draws = true) : ∃ x kk, i = .rnd x kk := by
  cases i <;> simp_all [mayChange]

theorem mayChange_bytes {i : Instr} {s : State} {a : Nat} (h : a ∈ (mayChange i s).bytes) :
    ∃ x, i = .ldB x ∨ i = .ldMemVx x := by
  cases i <;> simp_all [mayChange]

/-! ### What every instruction keeps -/

theorem exec_keeps_hostOwned {i : Instr} {s t : State} (h : exec i s = .next t) :
    t.key = s.key ∧ t.loaded = s.loaded ∧ t.cfg = s.cfg := by
  rcases exec_cases i s t h with ⟨e, rfl⟩ | hf
  · exact ⟨rfl, rfl, rfl⟩
  · exact ⟨hf.key, hf.loaded, hf.cfg⟩

/-- Only Fx0A starts a key wait, for its own register (R216). -/
theorem exec_enters_keyWait {i : Instr} {s t : State} (h : exec i s = .next t) (hs : s.run ≠ .awaitingKey)
    (ht : t.run = .awaitingKey) : i = .ldVxK t.waitReg := by
  rcases exec_cases i s t h with ⟨e, rfl⟩ | hf
  · simp at ht
  · obtain ⟨x, rfl⟩ := mayChange_wait (flag_of_ne hf.run fun hrun => hs (hrun.symm.trans ht))
    cases h; rfl

/-- Under `QUIRK_LOADSTORE_I = unchanged`, Fx55 and Fx65 keep `I` (42_index_memory.md R174, R175). -/
theorem indexAfter_unchanged {s : State} (x : Reg) (h : s.cfg.loadStoreIndex = .unchanged) : indexAfter x s = s.i := by
  rw [indexAfter, h]

theorem exec_ldMemVx_index {x : Reg} {s t : State} (h : exec (.ldMemVx x) s = .next t) :
    t.i = s.i ∨ t.i = indexAfter x s := by
  rcases fault_or_ok h with ⟨e, rfl⟩ | h
  · exact .inl rfl
  · obtain ⟨u, _, h⟩ := bind_eq_ok h
    cases h; exact .inr rfl

theorem exec_ldVxMem_index {x : Reg} {s t : State} (h : exec (.ldVxMem x) s = .next t) :
    t.i = s.i ∨ t.i = indexAfter x s := by
  rcases fault_or_ok h with ⟨e, rfl⟩ | h
  · exact .inl rfl
  · obtain ⟨bs, _, h⟩ := bind_eq_ok h
    cases h; exact .inr rfl

/-- The instructions that write `I` (R22); Fx55 and Fx65 only under a quirk. -/
theorem exec_writes_index {i : Instr} {s t : State} (h : exec i s = .next t) (hi : t.i ≠ s.i) :
    (∃ nnn, i = .ldI nnn) ∨ (∃ x, i = .addI x) ∨ (∃ x, i = .ldF x) ∨
      ((∃ x, i = .ldMemVx x ∨ i = .ldVxMem x) ∧ s.cfg.loadStoreIndex ≠ .unchanged) := by
  rcases exec_cases i s t h with ⟨e, rfl⟩ | hf
  · exact absurd rfl hi
  · rcases mayChange_index (flag_of_ne hf.index hi) with hL | hA | hF | ⟨x, hx⟩
    · exact .inl hL
    · exact .inr (.inl hA)
    · exact .inr (.inr (.inl hF))
    · refine .inr (.inr (.inr ⟨⟨x, hx⟩, fun hq => hi ?_⟩))
      have hafter : t.i = s.i ∨ t.i = indexAfter x s := by
        rcases hx with rfl | rfl
        · exact exec_ldMemVx_index h
        · exact exec_ldVxMem_index h
      simpa [indexAfter_unchanged x hq] using hafter

/-! ### What an instruction that completes does to `pc`, the stack, memory and the run state -/

/-- The stack loses entries, or gets the return address on top (10_state.md R28). -/
def StackFlow (s t : State) : Prop :=
  (t.stack = s.stack ∧ t.sp.val ≤ s.sp.val) ∨
    ∃ h : s.sp.val < 16, t.stack = s.stack.set s.sp.val (s.pc + 2) ∧ t.sp.val = s.sp.val + 1

/-- The flow of a completed instruction, from `s` to `t`: what the invariant needs to know of it beside its frame. -/
structure Flow (s t : State) : Prop where
  /-- `pc` goes on by one or two instructions, or to a target that `ValidateTarget` accepts (40_control.md R110, R116). -/
  pc    : t.pc = s.pc + 2 ∨ t.pc = s.pc + 4 ∨ validTarget s.cfg t.pc.toNat
  /-- The stack stays, is popped or is pushed. -/
  stack : StackFlow s t
  /-- Memory stays, or takes a store that passes every check (20_memory.md R57). -/
  mem   : t.mem = s.mem ∨ ∃ a bs, storable s.cfg a bs.length ∧ t.mem = (s.advance.loadBytes a bs).mem
  /-- The run state stays, or the key wait starts (44_timers_input.md R216). -/
  run   : t.run = s.run ∨ t.run = .awaitingKey

/-- The flow of an instruction that keeps the stack and memory and goes on to the next one. -/
theorem flow_of_falls_through {s t u : State} (h : complete s (.ok u) = .next t)
    (hu : u.pc = s.pc + 2 ∧ u.stack = s.stack ∧ u.sp = s.sp ∧ u.mem = s.mem ∧ (u.run = s.run ∨ u.run = .awaitingKey)) :
    Flow s t := by
  obtain ⟨hpc, hstack, hsp, hmem, hrun⟩ := hu
  cases h
  exact ⟨.inl hpc, .inl ⟨hstack, by rw [hsp]⟩, .inl hmem, hrun⟩

theorem flow_skip (c : Bool) (s : State) : Flow s (skipIf c s.advance) := by
  refine ⟨?_, .inl ⟨by simp, by simp⟩, .inl (by simp), .inl (by simp)⟩
  cases c with
  | false => exact .inl rfl
  | true => exact .inr (.inl (by rw [skipIf_pc, if_pos rfl, advance_pc, BitVec.add_assoc]; rfl))

/-- The flow of a jump, from the state `u` that the instruction has made of `s` by then. -/
theorem flow_of_validateTarget {s u t : State} {a : Word} (h : validateTarget a u = .ok t) (hc : u.cfg = s.cfg)
    (hstack : StackFlow s u) (hmem : u.mem = s.mem) (hrun : u.run = s.run) : Flow s t := by
  obtain ⟨hmax, heven, rfl⟩ := validateTarget_cases h
  exact ⟨.inr (.inr ⟨hmax, by rwa [hc] at heven⟩), hstack, .inl hmem, .inl hrun⟩

/-- The flow of a store. -/
theorem flow_of_writeBytes {s t : State} {a : Nat} {bs : List Byte} (h : writeBytes a bs s.advance = .ok t)
    (hb : bs ≠ []) : Flow s t := by
  obtain ⟨rfl, hchecks⟩ := writeBytes_cases h
  exact ⟨.inl (by simp), .inl ⟨by simp, by simp⟩, .inr ⟨a, bs, hchecks hb, rfl⟩, .inl (by simp)⟩

/-- Every meaning ends in the state of a fatal error, or has the flow of a completed instruction. -/
theorem exec_flow {i : Instr} {s t : State} (h : exec i s = .next t) : (∃ e, t = raiseFault e s) ∨ Flow s t := by
  cases i with
  | cls | ldI | ldF | addI | ldImm | addImm | ldReg | orReg | andReg | xorReg | addReg | sub | subn | shr | shl | rnd
  | ldVxDt | ldVxK | ldDtVx | ldStVx => exact .inr (flow_of_falls_through h (by simp))
  | seImm | sneImm | seReg | sneReg => cases h; exact .inr (flow_skip _ s)
  | skp x | sknp x =>
    refine (fault_or_ok h).imp_right fun h => ?_
    obtain ⟨k, _, h⟩ := bind_eq_ok h
    cases h; exact flow_skip _ s
  | sys nnn =>
    refine (fault_or_ok h).imp_right fun h => ?_
    split at h <;> cases h
    exact flow_of_falls_through (complete_ok s _) (by simp)
  | jp nnn | jpV0 nnn =>
    refine (fault_or_ok h).imp_right fun h => ?_
    exact flow_of_validateTarget h rfl (.inl (by simp)) rfl rfl
  | call nnn =>
    refine (fault_or_ok h).imp_right fun h => ?_
    obtain ⟨u, hp, h⟩ := bind_eq_ok h
    obtain ⟨hroom, rfl⟩ := push_cases hp
    exact flow_of_validateTarget h rfl (.inr ⟨hroom, rfl, rfl⟩) rfl rfl
  | ret =>
    refine (fault_or_ok h).imp_right fun h => ?_
    obtain ⟨⟨a, u⟩, hp, h⟩ := bind_eq_ok h
    obtain ⟨_, _, rfl⟩ := pop_cases hp
    exact flow_of_validateTarget h rfl (.inl (by simp)) rfl rfl
  | drw x y n =>
    refine (fault_or_ok h).imp_right fun h => ?_
    split at h
    · unfold drawNothing at h
      split at h <;> cases h
      exact flow_of_falls_through (complete_ok s _) (by simp)
    · obtain ⟨bs, _, h⟩ := bind_eq_ok h
      cases h; exact flow_of_falls_through (complete_ok s _) (by simp)
  | ldB x =>
    refine (fault_or_ok h).imp_right fun h => ?_
    exact flow_of_writeBytes h (by simp [bcdDigits])
  | ldMemVx x =>
    refine (fault_or_ok h).imp_right fun h => ?_
    obtain ⟨u, hw, h⟩ := bind_eq_ok h
    have hu : Flow s u := flow_of_writeBytes hw (List.ne_nil_of_length_pos (by rw [length_regsUpTo]; omega))
    cases h; exact ⟨hu.pc, hu.stack, hu.mem, hu.run⟩
  | ldVxMem x =>
    refine (fault_or_ok h).imp_right fun h => ?_
    obtain ⟨bs, _, h⟩ := bind_eq_ok h
    cases h; exact flow_of_falls_through (complete_ok s _) (by simp)

end Sys2Proof.Machine

namespace Sys2Proof.Safety

open Sys2Proof.Machine

/-! ### The invariant, kept by each way a step can go -/

/-- A fatal error keeps the invariant: it writes the run state and the record together (60_exceptions.md R234). -/
theorem inv_raiseFault {s : State} (e : Fault) (hs : Inv s) (hl : s.loaded = true) : Inv (raiseFault e s) where
  memory := hs.memory
  record := by simp
  unloaded h := absurd (hl.symm.trans h) (by decide)
  pcBound := hs.pcBound
  pcEven := hs.pcEven
  stackBound := hs.stackBound
  stackEven := hs.stackEven
  lowRegion := hs.lowRegion

/-- The key wait keeps the invariant: it writes one register and the run state (44_timers_input.md R217). -/
theorem inv_keyWaitStep {s : State} (hs : Inv s) (hr : s.run = .awaitingKey) : Inv (keyWaitStep s) := by
  have hfault : s.fault = none := hs.record.mpr (by rw [hr]; decide)
  rcases keyWaitStep_cases s with h | ⟨k, _, h⟩
  · rwa [h]
  · rw [h]
    exact {
      memory := hs.memory
      record := by simp [hfault]
      unloaded := fun _ => rfl
      pcBound := hs.pcBound
      pcEven := hs.pcEven
      stackBound := hs.stackBound
      stackEven := hs.stackEven
      lowRegion := hs.lowRegion }

section Flow

variable {s t : State}

theorem flow_keeps_memory (hs : Inv s) (hc : t.cfg = s.cfg) (hf : Flow s t) : Memory.wf t.cfg t.mem = true := by
  rw [hc]
  rcases hf.mem with hm | ⟨a, bs, ⟨hfits, _⟩, hm⟩
  · rw [hm]; exact hs.memory
  · rw [hm]; exact wf_loadBytes s.advance a bs hs.memory hfits

/-- A store under `LOW_WRITE_POLICY = fault` starts at or above 0x200, so no byte below is written. -/
theorem flow_keeps_lowRegion (hs : Inv s) (hc : t.cfg = s.cfg) (hf : Flow s t) (hp : t.cfg.lowWrite = .fault) (a : Nat)
    (ha : a < 0x200) : t.readByte a = resetByte t.cfg a := by
  rw [hc] at hp ⊢
  rw [← hs.lowRegion hp a ha]
  rcases hf.mem with hm | ⟨b, bs, ⟨_, hlow⟩, hm⟩
  · exact readByte_congr hm hc a
  · have hb : 0x200 ≤ b := hlow.resolve_right (by rw [hp]; decide)
    calc t.readByte a = (s.advance.loadBytes b bs).readByte a := readByte_congr hm (by simpa using hc) a
      _ = s.readByte a := by rw [readByte_loadBytes, if_neg (by omega), readByte_advance]

theorem flow_keeps_pcBound (hpc : s.pc.toNat ≤ 0xFFE) (hf : Flow s t) : t.pc.toNat ≤ 0x1002 := by
  rcases hf.pc with h | h | ⟨h, _⟩
  · rw [h]; bv_omega
  · rw [h]; bv_omega
  · omega

theorem flow_keeps_pcEven (hs : Inv s) (hc : t.cfg = s.cfg) (hf : Flow s t)
    (hp : t.cfg.oddTarget = .fault) : t.pc.toNat % 2 = 0 := by
  rw [hc] at hp
  have heven := hs.pcEven hp
  rcases hf.pc with h | h | ⟨_, h⟩
  · rw [h]; bv_omega
  · rw [h]; bv_omega
  · exact h.resolve_right (by rw [hp]; decide)

/-- An entry in use after a completed instruction was in use before, or is the return address pushed. -/
theorem flow_stack_entry (hf : Flow s t) (k : Fin 16) (hk : k.val < t.sp.val) :
    (k.val < s.sp.val ∧ t.stack[k.val] = s.stack[k.val]) ∨ t.stack[k.val] = s.pc + 2 := by
  rcases hf.stack with ⟨hst, hsp⟩ | ⟨hroom, hst, hsp⟩
  · exact .inl ⟨by omega, by simp only [hst]⟩
  · by_cases h : s.sp.val = k.val
    · exact .inr (by simp only [hst, h, Vector.getElem_set_self])
    · exact .inl ⟨by omega, by simp only [hst, Vector.getElem_set_ne _ _ h]⟩

theorem flow_keeps_stackBound (hs : Inv s) (hpc : s.pc.toNat ≤ 0xFFE) (hf : Flow s t) (k : Fin 16)
    (hk : k.val < t.sp.val) : t.stack[k.val].toNat ≤ 0x1000 := by
  rcases flow_stack_entry hf k hk with ⟨hold, h⟩ | h
  · rw [h]; exact hs.stackBound k hold
  · rw [h]; bv_omega

theorem flow_keeps_stackEven (hs : Inv s) (hc : t.cfg = s.cfg) (hf : Flow s t)
    (hp : t.cfg.oddTarget = .fault) (k : Fin 16) (hk : k.val < t.sp.val) : t.stack[k.val].toNat % 2 = 0 := by
  rw [hc] at hp
  rcases flow_stack_entry hf k hk with ⟨hold, h⟩ | h
  · rw [h]; exact hs.stackEven hp k hold
  · have heven := hs.pcEven hp
    rw [h]; bv_omega

/-- A completed instruction of a RUNNING machine has no record to keep, and does not halt. -/
theorem flow_keeps_record (hs : Inv s) (hr : s.run = .running) (ht : t.fault = s.fault) (hf : Flow s t) :
    t.fault = none ↔ t.run ≠ .halted := by
  have hfault : s.fault = none := hs.record.mpr (by rw [hr]; decide)
  have hrun : t.run ≠ .halted := by
    rcases hf.run with h | h
    · rw [h, hr]; decide
    · rw [h]; decide
  exact iff_of_true (ht.trans hfault) hrun

end Flow

/-- Every instruction fetched by a loaded RUNNING machine keeps the invariant. -/
theorem inv_exec {i : Instr} {s t : State} (hs : Inv s) (hl : s.loaded = true) (hr : s.run = .running)
    (hpc : s.pc.toNat ≤ 0xFFE) (h : exec i s = .next t) : Inv t := by
  rcases exec_cases i s t h with ⟨e, rfl⟩ | hframe
  · exact inv_raiseFault e hs hl
  rcases exec_flow h with ⟨e, rfl⟩ | hf
  · exact inv_raiseFault e hs hl
  have hc := hframe.cfg
  exact {
    memory := flow_keeps_memory hs hc hf
    record := flow_keeps_record hs hr hframe.fault hf
    unloaded := fun h => absurd ((hframe.loaded.trans hl).symm.trans h) (by decide)
    pcBound := flow_keeps_pcBound hpc hf
    pcEven := flow_keeps_pcEven hs hc hf
    stackBound := flow_keeps_stackBound hs hpc hf
    stackEven := flow_keeps_stackEven hs hc hf
    lowRegion := flow_keeps_lowRegion hs hc hf }

theorem inv_step {s t : State} (hs : Inv s) (h : step s = .next t) : Inv t := by
  rcases step_cases h with ⟨_, rfl⟩ | ⟨_, hr, rfl⟩ | ⟨hl, hr, ⟨e, rfl⟩ | ⟨op, i, hfetch, _, hexec⟩⟩
  · exact hs
  · exact inv_keyWaitStep hs hr
  · exact inv_raiseFault e hs hl
  · exact inv_exec hs hl hr (fetch_ok_bound hfetch) hexec

end Sys2Proof.Safety

namespace Sys2Proof.Machine

/-! ### Pieces of state replaced before an instruction (10_state.md R22, R29, R31) -/

/-- New values for some of the pieces that few instructions read: `I`, `DT`, `ST` and the key latch. -/
structure Pieces where
  index : Option Word := none
  delay : Option Byte := none
  sound : Option Byte := none
  key   : Option (Vector Bool 16) := none

/-- The state with the given pieces replaced. -/
def State.replace (p : Pieces) (s : State) : State :=
  { s with i := p.index.getD s.i, dt := p.delay.getD s.dt, st := p.sound.getD s.st, key := p.key.getD s.key }

/-- The instruction reads none of the pieces replaced. -/
def Pieces.unreadBy (p : Pieces) : Instr → Prop
  | .addI _ | .ldB _ | .ldMemVx _ | .ldVxMem _ | .drw .. => p.index = none
  | .ldVxDt _ => p.delay = none
  | .skp _ | .sknp _ => p.key = none
  | _ => True

/-- What is left of the replacement once the instruction has written its own pieces. -/
def Pieces.afterWrites (p : Pieces) : Instr → Pieces
  | .ldI _ | .ldF _ => { p with index := none }
  | .ldDtVx _ => { p with delay := none }
  | .ldStVx _ => { p with sound := none }
  | _ => p

/-- A sequence whose second operation does the same but for `h`. -/
theorem bind_map_of_same {α : Type} {h : State → State} {x : Except Fault α} {f f' : α → Except Fault State}
    (hf : ∀ a, f' a = (f a).map h) : (x >>= f') = (x >>= f).map h := by
  cases x with
  | error e => rfl
  | ok a => exact hf a

/-- A sequence whose first operation does the same but for `g`, and whose second does then but for `h`. -/
theorem bind_map_of_map {α : Type} {g : α → α} {h : State → State} {x x' : Except Fault α}
    {f f' : α → Except Fault State} (hx : x' = x.map g) (hf : ∀ a, f' (g a) = (f a).map h) :
    (x' >>= f') = (x >>= f).map h := by
  subst hx
  cases x with
  | error e => rfl
  | ok a => exact hf a

theorem replace_i {p : Pieces} (hp : p.index = none) (s : State) : (s.replace p).i = s.i := by
  rw [State.replace, hp, Option.getD_none]

theorem replace_dt {p : Pieces} (hp : p.delay = none) (s : State) : (s.replace p).dt = s.dt := by
  rw [State.replace, hp, Option.getD_none]

theorem replace_key {p : Pieces} (hp : p.key = none) (s : State) : (s.replace p).key = s.key := by
  rw [State.replace, hp, Option.getD_none]

/-- A write of `I` and a replacement that leaves `I` alone. -/
theorem setIndex_replace {p : Pieces} (hp : p.index = none) (s : State) (w : Word) :
    (s.replace p).setIndex w = (s.setIndex w).replace p := by
  rw [State.replace, State.replace, hp]; rfl

theorem indexAfter_replace {p : Pieces} (hp : p.index = none) (s : State) (x : Reg) :
    indexAfter x (s.replace p) = indexAfter x s := by
  unfold indexAfter
  rw [replace_i hp]; rfl

section Replace

variable (p : Pieces) (s : State)

@[simp] theorem replace_cfg : (s.replace p).cfg = s.cfg := rfl

theorem advance_replace : (s.replace p).advance = s.advance.replace p := rfl

theorem skipIf_replace (c : Bool) : skipIf c (s.replace p) = (skipIf c s).replace p := by
  cases c <;> rfl

theorem setLogicFlag_replace : (s.replace p).setLogicFlag = s.setLogicFlag.replace p := by
  simp only [State.setLogicFlag, apply_ite (State.replace p)]; rfl

theorem setIndexFlag_replace (c : Bool) : (s.replace p).setIndexFlag c = (s.setIndexFlag c).replace p := by
  simp only [State.setIndexFlag, apply_ite (State.replace p)]; rfl

theorem memRead_replace (a : Nat) : memRead a (s.replace p) = memRead a s := rfl

theorem readBytes_replace (a n : Nat) : readBytes a n (s.replace p) = readBytes a n s := by
  induction n generalizing a with
  | zero => rfl
  | succ n ih => simp only [readBytes, memRead_replace, ih]

theorem memWrite_replace (a : Nat) (b : Byte) : memWrite a b (s.replace p) = (memWrite a b s).map (State.replace p) := by
  simp only [memWrite, apply_ite (Except.map (State.replace p))]; rfl

theorem validateTarget_replace (a : Word) :
    validateTarget a (s.replace p) = (validateTarget a s).map (State.replace p) := by
  simp only [validateTarget, apply_ite (Except.map (State.replace p))]; rfl

theorem writeBytes_replace (a : Nat) (bs : List Byte) :
    writeBytes a bs (s.replace p) = (writeBytes a bs s).map (State.replace p) := by
  induction bs generalizing a s with
  | nil => rfl
  | cons b bs ih =>
    rw [writeBytes, writeBytes, memWrite_replace]
    cases memWrite a b s with
    | error e => rfl
    | ok u => exact ih u (a + 1)

theorem push_replace (a : Word) : push a (s.replace p) = (push a s).map (State.replace p) := by
  simp only [push, apply_dite (Except.map (State.replace p))]; rfl

theorem pop_replace : pop (s.replace p) = (pop s).map (Prod.map id (State.replace p)) := by
  simp only [pop, apply_dite (Except.map (Prod.map id (State.replace p)))]; rfl

theorem drawNothing_replace (x y : Reg) :
    drawNothing x y (s.replace p) = (drawNothing x y s).map (State.replace p) := by
  unfold drawNothing
  rw [replace_cfg]
  cases s.cfg.zeroHeight <;> rfl

theorem setRegsFrom_replace (k : Nat) (bs : List Byte) :
    (s.replace p).setRegsFrom k bs = (s.setRegsFrom k bs).replace p := by
  induction bs generalizing k s with
  | nil => rfl
  | cons b bs ih =>
    rw [State.setRegsFrom, State.setRegsFrom, ← ih]
    split <;> rfl

end Replace

theorem drawFromMemory_replace {p : Pieces} (hp : p.index = none) (s : State) (x y : Reg) (n : Nibble) :
    drawFromMemory x y n (s.replace p) = (drawFromMemory x y n s).map (State.replace p) := by
  unfold drawFromMemory
  rw [replace_i hp, readBytes_replace]
  exact bind_map_of_same fun bs => rfl

/-- The meaning `o'`, begun in the state `s.replace p`, does what the meaning `o`, begun in `s`, does: the same fatal
error, or the same next state but for the replacement `q`. -/
def Follows (p q : Pieces) (s : State) (o o' : Host.Outcome State Fault Refusal) : Prop :=
  ∃ r, o = complete s r ∧ o' = complete (s.replace p) (r.map (State.replace q))

theorem follows_of_eq_map {p q : Pieces} {s : State} {r r' : Except Fault State} (h : r' = r.map (State.replace q)) :
    Follows p q s (complete s r) (complete (s.replace p) r') := ⟨r, rfl, by rw [h]⟩

theorem follows_of_ok {p q : Pieces} {s u u' : State} (h : u' = u.replace q) :
    Follows p q s (complete s (.ok u)) (complete (s.replace p) (.ok u')) := follows_of_eq_map (by rw [h]; rfl)

/-- An instruction that reads none of the pieces replaced follows itself. -/
theorem exec_replace {p : Pieces} {i : Instr} (hp : p.unreadBy i) (s : State) :
    Follows p (p.afterWrites i) s (exec i s) (exec i (s.replace p)) := by
  cases i with
  | cls | ldI | ldF | ldImm | addImm | ldReg | addReg | sub | subn | shr | shl | rnd | ldVxK | ldDtVx | ldStVx =>
    exact follows_of_ok rfl
  | seImm | sneImm | seReg | sneReg => exact follows_of_ok (skipIf_replace p s.advance _)
  | orReg x y | andReg x y | xorReg x y => exact follows_of_ok (setLogicFlag_replace p (s.advance.setReg x _))
  | sys nnn =>
    refine follows_of_eq_map ?_
    rw [replace_cfg]
    cases s.cfg.sysPolicy <;> rfl
  | jp nnn | jpV0 nnn => exact follows_of_eq_map (validateTarget_replace p s.advance _)
  | call nnn =>
    exact follows_of_eq_map
      (bind_map_of_map (push_replace p s.advance _) fun u => validateTarget_replace p u _)
  | ret =>
    exact follows_of_eq_map
      (bind_map_of_map (pop_replace p s.advance) fun q => validateTarget_replace p q.2 q.1)
  | ldVxDt x => exact follows_of_ok (by rw [replace_dt hp]; rfl)
  | skp x | sknp x =>
    refine follows_of_eq_map (bind_map_of_same fun k => ?_)
    rw [replace_key hp]
    exact congrArg Except.ok (skipIf_replace p s.advance _)
  | addI x =>
    refine follows_of_ok ?_
    rw [replace_i hp, advance_replace, setIndex_replace hp]
    exact setIndexFlag_replace p (s.advance.setIndex _) _
  | drw x y n =>
    refine follows_of_eq_map ?_
    rw [apply_ite (Except.map _), drawNothing_replace, drawFromMemory_replace hp]
    rfl
  | ldB x =>
    refine follows_of_eq_map ?_
    rw [replace_i hp]
    exact writeBytes_replace p s.advance _ _
  | ldMemVx x =>
    refine follows_of_eq_map ?_
    rw [replace_i hp, indexAfter_replace hp]
    exact bind_map_of_map (writeBytes_replace p s.advance _ _) fun u => congrArg Except.ok (setIndex_replace hp u _)
  | ldVxMem x =>
    refine follows_of_eq_map ?_
    rw [replace_i hp, indexAfter_replace hp, advance_replace, readBytes_replace]
    refine bind_map_of_same fun bs => ?_
    rw [setRegsFrom_replace, setIndex_replace hp]
    rfl

/-- An instruction that reads none of the pieces replaced ends in the state `t` that it ends in without the replacement,
once `restore` puts back in the pieces that it did not write. -/
theorem exec_replace_restores {p : Pieces} {i : Instr} {s t : State} {restore : State → State} (hp : p.unreadBy i)
    (h : exec i s = .next t) (hall : restore (t.replace p) = t) (hleft : restore (t.replace (p.afterWrites i)) = t) :
    ∃ u, exec i (s.replace p) = .next u ∧ restore u = t := by
  obtain ⟨r, hs, hs'⟩ := exec_replace hp s
  rw [hs] at h
  cases r with
  | error e => cases h; exact ⟨_, hs', hall⟩
  | ok u => cases h; exact ⟨_, hs', hleft⟩

/-! ### The readers of each piece -/

theorem index_unreadBy {i : Instr} (w : Word) (hAddI : ∀ x, i ≠ .addI x) (hB : ∀ x, i ≠ .ldB x)
    (hStore : ∀ x, i ≠ .ldMemVx x) (hLoad : ∀ x, i ≠ .ldVxMem x) (hDraw : ∀ x y n, i ≠ .drw x y n) :
    Pieces.unreadBy { index := some w } i := by
  cases i with
  | addI x => exact absurd rfl (hAddI x)
  | ldB x => exact absurd rfl (hB x)
  | ldMemVx x => exact absurd rfl (hStore x)
  | ldVxMem x => exact absurd rfl (hLoad x)
  | drw x y n => exact absurd rfl (hDraw x y n)
  | ldVxDt | skp | sknp => rfl
  | _ => trivial

theorem delay_unreadBy {i : Instr} (b : Byte) (hDt : ∀ x, i ≠ .ldVxDt x) : Pieces.unreadBy { delay := some b } i := by
  cases i with
  | ldVxDt x => exact absurd rfl (hDt x)
  | addI | ldB | ldMemVx | ldVxMem | drw | skp | sknp => rfl
  | _ => trivial

theorem sound_unreadBy (i : Instr) (b : Byte) : Pieces.unreadBy { sound := some b } i := by
  cases i with
  | addI | ldB | ldMemVx | ldVxMem | drw | ldVxDt | skp | sknp => rfl
  | _ => trivial

theorem key_unreadBy {i : Instr} (key : Vector Bool 16) (hSkp : ∀ x, i ≠ .skp x) (hSknp : ∀ x, i ≠ .sknp x) :
    Pieces.unreadBy { key := some key } i := by
  cases i with
  | skp x => exact absurd rfl (hSkp x)
  | sknp x => exact absurd rfl (hSknp x)
  | addI | ldB | ldMemVx | ldVxMem | drw | ldVxDt => rfl
  | _ => trivial

end Sys2Proof.Machine

/-! ### The statements settled -/

namespace Sys2Proof.Proofs

open Sys2Proof.Machine Sys2Proof.Safety

/-- Settles O20: by the cases of a step, each of which keeps the invariant (`inv_step`). -/
theorem stepKeepsTheInvariant : Obligations.StepKeepsTheInvariant :=
  fun _ _ hs h => inv_step hs h

/-- Settles O15: only the key wait's end, a fatal error and Fx0A write the run state. -/
theorem runStateMovesOnlyAsAllowed : Obligations.RunStateMovesOnlyAsAllowed := by
  intro s t h
  rcases step_cases h with ⟨_, rfl⟩ | ⟨_, hr, rfl⟩ | ⟨_, hr, hstep⟩
  · exact ⟨fun hs ht => absurd ht hs, fun hs ht => absurd hs ht, id⟩
  · refine ⟨fun hs => absurd hr hs, fun _ ht => ?_, fun hs => absurd (hr.symm.trans hs) (by decide)⟩
    rcases keyWaitStep_cases s with hw | ⟨k, hk, hw⟩
    · exact absurd (by rw [hw]; exact hr) ht
    · exact ⟨by rw [hw]; rfl, k, hk⟩
  · refine ⟨fun hs ht => ?_, fun hs => absurd (hr.symm.trans hs) (by decide),
      fun hs => absurd (hr.symm.trans hs) (by decide)⟩
    rcases hstep with ⟨e, rfl⟩ | ⟨op, i, hfetch, hdecode, hexec⟩
    · cases ht
    · exact ⟨op, t.waitReg, hfetch, exec_enters_keyWait hexec hs ht ▸ hdecode, rfl⟩

/-- Settles O16: no case of a step writes the latch, the loaded flag or the configuration. -/
theorem stepKeepsHostOwnedState : Obligations.StepKeepsHostOwnedState := by
  intro s t h
  rcases step_cases h with ⟨_, rfl⟩ | ⟨_, _, rfl⟩ | ⟨_, _, ⟨e, rfl⟩ | ⟨op, i, _, _, hexec⟩⟩
  · exact ⟨rfl, rfl, rfl⟩
  · rcases keyWaitStep_cases s with hw | ⟨k, _, hw⟩
    · rw [hw]; exact ⟨rfl, rfl, rfl⟩
    · rw [hw]; exact ⟨rfl, rfl, rfl⟩
  · exact ⟨rfl, rfl, rfl⟩
  · exact exec_keeps_hostOwned hexec

/-- Settles O17: what a completed instruction writes is what `mayChange` names (`exec_cases`), and a fatal error writes
the run state and the record alone. -/
theorem onlyNamedInstructionsWriteEachPiece : Obligations.OnlyNamedInstructionsWriteEachPiece := by
  intro i s t h
  refine ⟨exec_writes_index h, ?_⟩
  rcases exec_cases i s t h with ⟨e, rfl⟩ | hf
  · simp
  · exact ⟨fun hne => mayChange_stack (hne.elim (flag_of_ne hf.stack) (flag_of_ne hf.sp)),
      fun hne => mayChange_delay (flag_of_ne hf.delay hne),
      fun hne => mayChange_sound (flag_of_ne hf.sound hne),
      fun hne => mayChange_display (flag_of_ne (fun hd => display_ext (hf.display hd)) hne),
      fun hne => .inr (mayChange_wait (flag_of_ne hf.run hne)),
      fun ⟨a, hne⟩ => mayChange_bytes (Classical.byContradiction fun ha => hne (hf.bytes a ha)),
      fun hne => mayChange_draws (flag_of_ne hf.draws hne)⟩

/-- Settles O18: each piece is replaced alone, and `exec_replace` carries the replacement through every instruction that
does not read it. -/
theorem onlyNamedInstructionsReadEachPiece : Obligations.OnlyNamedInstructionsReadEachPiece := by
  intro i s t h
  refine ⟨fun w hAddI hB hStore hLoad hDraw => ?_, fun b hDt => ?_, fun b => ?_, fun key hSkp hSknp => ?_⟩
  · have hread := index_unreadBy w hAddI hB hStore hLoad hDraw
    exact exec_replace_restores (restore := fun u => { u with i := t.i }) hread h rfl (by cases i <;> rfl)
  · have hread := delay_unreadBy b hDt
    exact exec_replace_restores (restore := fun u => { u with dt := t.dt }) hread h rfl (by cases i <;> rfl)
  · have hread := sound_unreadBy i b
    exact exec_replace_restores (restore := fun u => { u with st := t.st }) hread h rfl (by cases i <;> rfl)
  · have hread := key_unreadBy key hSkp hSknp
    exact exec_replace_restores (restore := fun u => { u with key := t.key }) hread h rfl (by cases i <;> rfl)

/-- Settles O6: the two bytes are the word that fetch answers (20_memory.md R59), and a RUNNING step is `exec` of what
that word decodes to. -/
theorem stepExecutesTheDecodedInstruction : Obligations.StepExecutesTheDecodedInstruction := by
  intro s i hl hr hpc hd
  have hdecode : decode s.cfg (wordOfBytes (s.readByte s.pc.toNat) (s.readByte (s.pc.toNat + 1))) = some i := by
    simpa [decodeBytes] using hd
  rw [step_running hl hr, runningStep_exec (fetch_ok hpc) hdecode]

end Sys2Proof.Proofs

/-! SUPPORT and PROOFS for the statements about memory (20_memory.md): what a canonical memory is told by, the
instruction fetch, and the I-relative address. -/

namespace Sys2Proof.Machine

namespace Memory

/-! ### A canonical memory is told by its bytes (R50, R55; log 6) -/

theorem read_cons_self (cfg : Config) (c : Host.Cell) (m : List Host.Cell) : read cfg (c :: m) c.1 = c.2 := by
  rw [read, lookup_cons, if_pos rfl]; rfl

theorem read_cons_above (cfg : Config) {c : Host.Cell} {a : Nat} (m : List Host.Cell) (h : c.1 < a) :
    read cfg (c :: m) a = read cfg m a := by
  rw [read, read, lookup_cons, if_neg (by omega)]

/-- Below its lower bound a canonical memory reads as after reset. -/
theorem read_below {cfg : Config} {lo a : Nat} {m : List Host.Cell} (h : wfFrom cfg lo m = true) (ha : a < lo) :
    read cfg m a = resetByte cfg a := by
  rw [read, lookup_below h ha]; rfl

/-- The first cell differs from its reset contents, so a canonical memory that reads like it at its address has no
lower bound above that address. -/
theorem lowerBound_le_of_read_head {cfg : Config} {lo lo' : Nat} {c : Host.Cell} {m m' : List Host.Cell}
    (h : wfFrom cfg lo (c :: m) = true) (h' : wfFrom cfg lo' m' = true)
    (hread : read cfg (c :: m) c.1 = read cfg m' c.1) : lo' ≤ c.1 := by
  obtain ⟨_, _, hlisted, _⟩ := wfFrom_cons.mp h
  by_contra hlt
  rw [read_cons_self, read_below h' (by omega)] at hread
  exact hlisted hread

/-- A memory with a first cell does not read like the memory without cells. -/
theorem not_read_alike_nil {cfg : Config} {lo : Nat} {c : Host.Cell} {m : List Host.Cell}
    (h : wfFrom cfg lo (c :: m) = true) (hread : read cfg (c :: m) c.1 = read cfg [] c.1) : False := by
  have hle : c.1 + 1 ≤ c.1 := lowerBound_le_of_read_head h (m' := []) rfl hread
  omega

/-- Canonical memories that read alike have the same first cell. -/
theorem head_eq_of_read_alike {cfg : Config} {lo lo' : Nat} {c d : Host.Cell} {m m' : List Host.Cell}
    (h : wfFrom cfg lo (c :: m) = true) (h' : wfFrom cfg lo' (d :: m') = true)
    (hread : ∀ a, read cfg (c :: m) a = read cfg (d :: m') a) : c = d := by
  have hfrom : wfFrom cfg c.1 (c :: m) = true := wfFrom_cons.mpr ⟨le_rfl, (wfFrom_cons.mp h).2⟩
  have hfrom' : wfFrom cfg d.1 (d :: m') = true := wfFrom_cons.mpr ⟨le_rfl, (wfFrom_cons.mp h').2⟩
  have haddr : c.1 = d.1 := le_antisymm (lowerBound_le_of_read_head h' hfrom (hread d.1).symm)
    (lowerBound_le_of_read_head h hfrom' (hread c.1))
  have hbyte : c.2 = d.2 := by
    rw [← read_cons_self cfg c m, hread, haddr, read_cons_self]
  exact Prod.ext haddr hbyte

theorem eq_of_read_alike {cfg : Config} {lo lo' : Nat} {m m' : List Host.Cell} (h : wfFrom cfg lo m = true)
    (h' : wfFrom cfg lo' m' = true) (hread : ∀ a, read cfg m a = read cfg m' a) : m = m' := by
  induction m generalizing lo lo' m' with
  | nil =>
    cases m' with
    | nil => rfl
    | cons d m' => exact (not_read_alike_nil h' (hread d.1).symm).elim
  | cons c m ih =>
    cases m' with
    | nil => exact (not_read_alike_nil h (hread c.1)).elim
    | cons d m' =>
      obtain rfl := head_eq_of_read_alike h h' hread
      obtain ⟨_, _, _, htail⟩ := wfFrom_cons.mp h
      obtain ⟨_, _, _, htail'⟩ := wfFrom_cons.mp h'
      refine congrArg (c :: ·) (ih htail htail' fun a => ?_)
      by_cases ha : c.1 < a
      · rw [← read_cons_above cfg m ha, hread, read_cons_above cfg m' ha]
      · rw [read_below htail (by omega), read_below htail' (by omega)]

end Memory

/-! ### The word that `withFetchWord` places (R59; log 5) -/

theorem tableWord_16 (w : Nat) : tableWord 16 w = BitVec.ofNat 16 w := by
  apply BitVec.eq_of_toNat_eq
  simp [tableWord]

theorem fetchAddress_le (s : State) : (fetchAddress s).toNat ≤ 0xFFE := by
  rw [fetchAddress]
  split
  · decide
  · omega

theorem readByte_withFetchWord (s : State) (n w a : Nat) :
    (s.withFetchWord n w).readByte a =
      if a = (fetchAddress s).toNat + 1 then lowByte (tableWord n w)
      else if a = (fetchAddress s).toNat then highByte (tableWord n w) else s.readByte a := by
  rw [← readByte_writeByte, ← readByte_writeByte]
  exact readByte_congr rfl rfl a

/-- What fetch answers next is the word placed. -/
theorem fetch_withFetchWord (s : State) (n w : Nat) : fetch (s.withFetchWord n w) = .ok (tableWord n w) := by
  have hpc : (s.withFetchWord n w).pc = fetchAddress s := rfl
  rw [fetch_ok (hpc ▸ fetchAddress_le s), hpc, readByte_withFetchWord, readByte_withFetchWord, if_neg (by omega),
    if_pos rfl, if_pos rfl, wordOfBytes_high_low]

end Sys2Proof.Machine

/-! ### The statements settled -/

namespace Sys2Proof.Proofs

open Sys2Proof.Machine Sys2Proof.Safety

/-- Settles O22: by induction on the cells, from the first address on. -/
theorem canonicalMemoriesThatReadAlikeAreEqual : Obligations.CanonicalMemoriesThatReadAlikeAreEqual :=
  fun _ _ _ h h' hread => Memory.eq_of_read_alike h h' hread

/-- Settles O7: the state is loaded and RUNNING, and fetch answers the word placed (`fetch_withFetchWord`). -/
theorem placedWordIsTheNextInstruction : Obligations.PlacedWordIsTheNextInstruction := by
  intro s w i hd
  have hdecode : decode s.cfg (tableWord 16 w) = some i := by rw [tableWord_16]; exact hd
  rw [step_running rfl rfl, runningStep_exec (fetch_withFetchWord s 16 w) hdecode]

/-- Settles O8: the two sides of the fetch check, `fetch_error` and `fetch_ok`. -/
theorem fetchReadsTheBigEndianWordOrFails : Obligations.FetchReadsTheBigEndianWordOrFails := by
  intro s
  refine ⟨fun hpc hl hr => ?_, fun hpc => ⟨_, fetch_ok (by omega), toNat_wordOfBytes _ _⟩⟩
  rw [step_running hl hr, runningStep_fetch_error (fetch_error (by omega))]
  rfl

/-- Settles O43: the base is the low 12 bits of `I` (`indexBase_eq`), and the sum is a number. -/
theorem effectiveAddressIsLowTwelveBitsPlusOffset : Obligations.EffectiveAddressIsLowTwelveBitsPlusOffset := ea_eq

end Sys2Proof.Proofs

/-! SUPPORT and PROOFS for the statements about encodings (30_encoding.md): words told by their major opcode, what each
family of the decoder answers and rejects, and the two round trips. -/

namespace Sys2Proof

/-! ### A word with a given major opcode is built from its other fields (R81) -/

section Major

variable {op : Word} {o : Nibble}

theorem encodeA_of_major (h : (fieldN1 op).toNat = o.toNat) : encodeA o (fieldNNN op) = op := by
  rw [← BitVec.eq_of_toNat_eq h, encodeA_of_fields]

theorem encodeRB_of_major {kk : Byte} (h : (fieldN1 op).toNat = o.toNat) (hkk : (fieldKK op).toNat = kk.toNat) :
    encodeRB o (fieldX op) kk = op := by
  rw [← BitVec.eq_of_toNat_eq h, ← BitVec.eq_of_toNat_eq hkk, encodeRB_of_fields]

theorem encodeRRN_of_major {n : Nibble} (h : (fieldN1 op).toNat = o.toNat) (hn : (fieldN op).toNat = n.toNat) :
    encodeRRN o (fieldX op) (fieldY op) n = op := by
  rw [← BitVec.eq_of_toNat_eq h, ← BitVec.eq_of_toNat_eq hn, encodeRRN_of_fields]

end Major

theorem eq_encodeA_iff {op : Word} {o : Nibble} (h : (fieldN1 op).toNat = o.toNat) (nnn : Addr) :
    op = encodeA o nnn ↔ fieldNNN op = nnn :=
  ⟨fun hop => by rw [hop, fieldNNN_encodeA], fun hnnn => by rw [← hnnn, encodeA_of_major h]⟩

/-! ### What is no instruction (R83, R86) -/

/-- A word of major opcode 0 is a SYS unless it is one of the two words that R83 takes out. -/
theorem sys_wellFormed_iff (cfg : Config) {op : Word} (h : (fieldN1 op).toNat = 0) :
    (Instr.sys (fieldNNN op)).wellFormed cfg = true ↔ op ≠ 0x00E0 ∧ op ≠ 0x00EE := by
  have hcls : op = 0x00E0 ↔ fieldNNN op = 0x0E0 := eq_encodeA_iff (o := 0) h 0x0E0
  have hret : op = 0x00EE ↔ fieldNNN op = 0x0EE := eq_encodeA_iff (o := 0) h 0x0EE
  simp only [Instr.wellFormed, Bool.and_eq_true, decide_eq_true_eq, ne_eq, hcls, hret]

theorem lowNibbleAccepted_eq_false_iff (cfg : Config) (n : Nibble) :
    lowNibbleAccepted cfg n = false ↔ cfg.lowNibble = .strict ∧ n.toNat ≠ 0 := by
  have hzero : n = 0#4 ↔ n.toNat = 0 := BitVec.toNat_inj.symm
  cases hc : cfg.lowNibble with
  | ignore => simp [lowNibbleAccepted, hc]
  | strict => simp [lowNibbleAccepted, hc, hzero]

theorem lowNibble_eq_zero_of_strict {cfg : Config} {n : Nibble} (hc : cfg.lowNibble = .strict)
    (h : lowNibbleAccepted cfg n = true) : n = 0 := by
  simpa [lowNibbleAccepted, hc] using h

/-! ### Decoding an encoded instruction (R83 to R86) -/

theorem decode_encode_sys {cfg : Config} {nnn : Addr} (h : (Instr.sys nnn).wellFormed cfg = true) :
    decode cfg (encodeA 0 nnn) = some (.sys nnn) := by
  have hne := (sys_wellFormed_iff cfg (op := encodeA 0 nnn) (by simp)).mp (by simpa using h)
  simp only [ne_eq, BitVec.ofNat_eq_ofNat] at hne
  simp [decode, hne]

/-- The fields of the encoded word choose the branch of the decoder, and are its operands. -/
theorem decode_encode {cfg : Config} {i : Instr} (h : i.wellFormed cfg = true) : decode cfg (encode i) = some i := by
  cases i with
  | sys nnn => exact decode_encode_sys h
  | cls | ret => rfl
  | jp | call | ldI | jpV0 | seImm | sneImm | ldImm | addImm | rnd | drw => simp [encode, decode]
  | seReg x y n | sneReg x y n =>
    have hn : lowNibbleAccepted cfg n = true := h
    simp [encode, decode, decode5_9, hn]
  | ldReg | orReg | andReg | xorReg | addReg | sub | shr | subn | shl => simp [encode, decode, decode8]
  | skp | sknp => simp [encode, decode, decodeE]
  | ldVxDt | ldVxK | ldDtVx | ldStVx | addI | ldF | ldB | ldMemVx | ldVxMem => simp [encode, decode, decodeF]

theorem decodeBytes_encodeBytes (cfg : Config) (i : Instr) (rest : List Byte) :
    decodeBytes cfg (encodeBytes i ++ rest) = (decode cfg (encode i)).map (fun j => (j, rest)) := by
  simp only [encodeBytes, List.cons_append, List.nil_append, decodeBytes, wordOfBytes_high_low]

/-! ### Encoding a decoded word (R83 to R86) -/

/-- The instruction stands for the word: it encodes to it and the decoder of this configuration can give it. -/
def StandsFor (cfg : Config) (op : Word) (i : Instr) : Prop := encode i = op ∧ i.wellFormed cfg = true

section Sound

variable {cfg : Config} {op : Word} {i : Instr}

theorem decode8_standsFor (h : decode8 op = some i) (hmajor : (fieldN1 op).toNat = 0x8) : StandsFor cfg op i := by
  unfold decode8 at h
  split at h <;> cases h <;> exact ⟨encodeRRN_of_major hmajor ‹_›, rfl⟩

theorem decodeE_standsFor (h : decodeE op = some i) (hmajor : (fieldN1 op).toNat = 0xE) : StandsFor cfg op i := by
  unfold decodeE at h
  split at h <;> cases h <;> exact ⟨encodeRB_of_major hmajor ‹_›, rfl⟩

theorem decodeF_standsFor (h : decodeF op = some i) (hmajor : (fieldN1 op).toNat = 0xF) : StandsFor cfg op i := by
  unfold decodeF at h
  split at h <;> cases h <;> exact ⟨encodeRB_of_major hmajor ‹_›, rfl⟩

theorem decode5_9_eq_some {j : Instr} (h : decode5_9 cfg op j = some i) :
    lowNibbleAccepted cfg (fieldN op) = true ∧ j = i := by
  simpa [decode5_9] using h

/-- Branch `h_k` of the decoder's match is the one of major opcode `k - 1`. -/
theorem decode_standsFor (h : decode cfg op = some i) : StandsFor cfg op i := by
  have hlt := (fieldN1 op).isLt
  unfold decode at h
  split at h
  case h_1 hmajor =>
    split_ifs at h with hcls hret <;> cases h
    · exact ⟨hcls.symm, rfl⟩
    · exact ⟨hret.symm, rfl⟩
    · exact ⟨encodeA_of_major hmajor, (sys_wellFormed_iff cfg hmajor).mpr ⟨hcls, hret⟩⟩
  case h_2 hmajor | h_3 hmajor | h_11 hmajor | h_12 hmajor => cases h; exact ⟨encodeA_of_major hmajor, rfl⟩
  case h_4 hmajor | h_5 hmajor | h_7 hmajor | h_8 hmajor | h_13 hmajor =>
    cases h; exact ⟨encodeRB_of_major hmajor rfl, rfl⟩
  case h_6 hmajor | h_10 hmajor =>
    obtain ⟨hn, rfl⟩ := decode5_9_eq_some h
    exact ⟨encodeRRN_of_major hmajor rfl, hn⟩
  case h_9 hmajor => exact decode8_standsFor h hmajor
  case h_14 hmajor => cases h; exact ⟨encodeRRN_of_major hmajor rfl, rfl⟩
  case h_15 hmajor => exact decodeE_standsFor h hmajor
  case h_16 => exact decodeF_standsFor h (by simp only [imp_false] at *; omega)

end Sound

/-! ### The words that each family rejects (R84 to R86) -/

theorem decode8_eq_none_iff (op : Word) :
    decode8 op = none ↔ (fieldN op).toNat ∈ [0x8, 0x9, 0xA, 0xB, 0xC, 0xD, 0xF] := by
  have hlt := (fieldN op).isLt
  unfold decode8
  split
  case h_10 => simp only [imp_false] at *; simp; omega
  all_goals simp [*]

theorem decodeE_eq_none_iff (op : Word) : decodeE op = none ↔ (fieldKK op).toNat ∉ [0x9E, 0xA1] := by
  unfold decodeE
  split <;> simp_all

theorem decodeF_eq_none_iff (op : Word) :
    decodeF op = none ↔ (fieldKK op).toNat ∉ [0x07, 0x0A, 0x15, 0x18, 0x1E, 0x29, 0x33, 0x55, 0x65] := by
  unfold decodeF
  split <;> simp_all

theorem decode5_9_eq_none_iff (cfg : Config) (op : Word) (i : Instr) :
    decode5_9 cfg op i = none ↔ cfg.lowNibble = .strict ∧ (fieldN op).toNat ≠ 0 := by
  rw [← lowNibbleAccepted_eq_false_iff]
  simp [decode5_9]

/-- The decoder rejects a word of major opcode 8, E, F, 5 or 9 alone, where the family does. Branches as in
`decode_standsFor`. -/
theorem decode_eq_none_iff (cfg : Config) (op : Word) :
    decode cfg op = none ↔
      ((fieldN1 op).toNat = 0x8 ∧ decode8 op = none) ∨ ((fieldN1 op).toNat = 0xE ∧ decodeE op = none) ∨
      ((fieldN1 op).toNat = 0xF ∧ decodeF op = none) ∨
      (cfg.lowNibble = .strict ∧ ((fieldN1 op).toNat = 0x5 ∨ (fieldN1 op).toNat = 0x9) ∧ (fieldN op).toNat ≠ 0) := by
  have hlt := (fieldN1 op).isLt
  unfold decode
  split
  case h_1 hmajor => split_ifs <;> simp [hmajor]
  case h_6 hmajor | h_10 hmajor => simp [hmajor, decode5_9_eq_none_iff]
  case h_16 =>
    have hmajor : (fieldN1 op).toNat = 0xF := by simp only [imp_false] at *; omega
    simp [hmajor]
  all_goals simp [*]

end Sys2Proof

namespace Sys2Proof.Machine

/-! ### Assembler lines (R90; log 18) -/

/-- The assembler gives back the instruction that a line was written for. The low nibble that SE and SNE of two registers
do not write is 0 under `DECODE_5_9_LOW_NIBBLE = strict`. -/
theorem assemble_asmOf {cfg : Config} {i : Instr} (hc : cfg.lowNibble = .strict) (h : i.wellFormed cfg = true) :
    assemble (asmOf i) = some (encodeBytes i) := by
  cases i with
  | seReg x y n | sneReg x y n =>
    obtain rfl : n = 0 := lowNibble_eq_zero_of_strict hc h
    rfl
  | _ => rfl

/-! ### What a step that halts replies (60_exceptions.md R230, R234) -/

theorem stepReply_of_halting_step {s t : State} (hl : s.loaded = true) (h : step s = .next t) (ht : t.run = .halted) :
    stepReply s = .fatal t.fault := by
  have hafter : afterStep s = t := by rw [afterStep, h]
  rw [stepReply, if_pos hl, hafter, ht]

end Sys2Proof.Machine

/-! ### The statements settled -/

namespace Sys2Proof.Proofs

open Sys2Proof.Machine Sys2Proof.Safety

/-- Settles O2: by the variants, each with the fields of its format; the two bytes are those of the word. -/
theorem decodeOfEncodeIsTheInstruction : Obligations.DecodeOfEncodeIsTheInstruction := by
  intro cfg i h
  refine ⟨decode_encode h, fun rest => ?_⟩
  rw [decodeBytes_encodeBytes, decode_encode h, Option.map_some]

/-- Settles O3: by the branches of the decoder, each word built again from its fields. -/
theorem encodeOfDecodeIsTheWord : Obligations.EncodeOfDecodeIsTheWord :=
  fun _ _ _ h => decode_standsFor h

/-- Settles O4: the families that can reject a word, and the words that each rejects. -/
theorem illegalWordsAreExactlyThoseListed : Obligations.IllegalWordsAreExactlyThoseListed := by
  intro cfg op
  rw [decode_eq_none_iff, decode8_eq_none_iff, decodeE_eq_none_iff, decodeF_eq_none_iff, toNat_fieldN1, toNat_fieldN,
    toNat_fieldKK]

/-- Settles O5: each form assembles to its own instruction (`assemble_asmOf`); those of one operand compute. -/
theorem assemblerFormsStandForTheirInstruction : Obligations.AssemblerFormsStandForTheirInstruction :=
  ⟨fun _ _ hc h => assemble_asmOf hc h, fun _ => ⟨rfl, rfl⟩⟩

/-- Settles O1: closed words, decoded one by one. -/
theorem specWordsDecodeToTheirInstruction : Obligations.SpecWordsDecodeToTheirInstruction := by
  unfold Obligations.SpecWordsDecodeToTheirInstruction
  decide

/-- Settles O9: the step takes the fatal error (`runningStep_illegal`), and the reply carries its record. -/
theorem illegalWordHaltsWithTheRawWord : Obligations.IllegalWordHaltsWithTheRawWord := by
  intro s op hl hr hfetch hdecode
  have hstep : step s = .next (haltedWith (.illegalOpcode op) s) := by
    rw [step_running hl hr, runningStep_illegal hfetch hdecode]; rfl
  exact ⟨hstep, stepReply_of_halting_step hl hstep rfl⟩

end Sys2Proof.Proofs

/-! SUPPORT and PROOFS for the statements about control transfer and skips (40_control.md): how a frame composes, how an
instruction that ends in `ValidateTarget` or in `Skip` ends, and what each of them does before that. -/

namespace Sys2Proof

/-- A claim's word that is the encoder's decodes to the instruction encoded. -/
theorem decode_of_encode_eq {cfg : Config} {i : Instr} {op : Word} (hop : op = encode i)
    (h : i.wellFormed cfg = true) : decode cfg op = some i := by
  rw [hop, decode_encode h]

end Sys2Proof

namespace Sys2Proof.Safety

open Sys2Proof.Machine

/-! ### Frames -/

theorem Frame.trans {c : Changes} {s t u : State} (h : Frame c s t) (h' : Frame c t u) : Frame c s u where
  regs r hr := (h'.regs r hr).trans (h.regs r hr)
  index hc := (h'.index hc).trans (h.index hc)
  sp hc := (h'.sp hc).trans (h.sp hc)
  stack hc := (h'.stack hc).trans (h.stack hc)
  delay hc := (h'.delay hc).trans (h.delay hc)
  sound hc := (h'.sound hc).trans (h.sound hc)
  display hc col row := (h'.display hc col row).trans (h.display hc col row)
  run hc := (h'.run hc).trans (h.run hc)
  waitReg hc := (h'.waitReg hc).trans (h.waitReg hc)
  draws hc := (h'.draws hc).trans (h.draws hc)
  bytes a ha := (h'.bytes a ha).trans (h.bytes a ha)
  key := h'.key.trans h.key
  fault := h'.fault.trans h.fault
  loaded := h'.loaded.trans h.loaded
  cfg := h'.cfg.trans h.cfg

theorem frame_setPc (a : Word) (s : State) : Frame {} s (s.advance.setPc a) := by
  constructor <;> simp

theorem frame_setStack_setPc (e : Vector Word 16) (n : Fin 17) (a : Word) (s : State) :
    Frame { stack := true } s ((s.advance.setStack e n).setPc a) := by
  constructor <;> simp

end Sys2Proof.Safety

namespace Sys2Proof.Machine

open Sys2Proof.Safety

/-! ### The end of a control transfer (R110) -/

section Transfer

variable {s u : State} {a : Word} {nnn : Addr}

theorem complete_validateTarget_ok (hc : u.cfg = s.cfg) (h : validTarget s.cfg a.toNat) :
    complete s (validateTarget a u) = .next (u.setPc a) := by
  obtain ⟨hmax, heven⟩ := h
  rw [validateTarget_ok hmax (by rwa [hc]), complete_ok]

theorem complete_validateTarget_outOfBounds (h : 0xFFE < a.toNat) :
    complete s (validateTarget a u) = .next (haltedWith (.outOfBounds a) s) := by
  rw [validateTarget_outOfBounds h]; rfl

theorem complete_validateTarget_misaligned (hc : u.cfg = s.cfg) (hmax : a.toNat ≤ 0xFFE) (hodd : a.toNat % 2 = 1)
    (hp : s.cfg.oddTarget = .fault) :
    complete s (validateTarget a u) = .next (haltedWith (.misalignedTarget a) s) := by
  rw [validateTarget_misaligned hmax hodd (by rwa [hc])]; rfl

/-- The target of JP and CALL as a number. -/
theorem toNat_setWidth_addr (nnn : Addr) : (nnn.setWidth 16).toNat = nnn.toNat :=
  BitVec.toNat_setWidth_of_le (by decide)

/-- A target `nnn` fails the range check only as 0xFFF, and else the alignment check when it is odd (R113, R114). -/
theorem complete_validateTarget_nnn_fails (hc : u.cfg = s.cfg) :
    (nnn = 0xFFF → complete s (validateTarget (nnn.setWidth 16) u) = .next (haltedWith (.outOfBounds 0x0FFF) s)) ∧
    (nnn ≠ 0xFFF → nnn.toNat % 2 = 1 → s.cfg.oddTarget = .fault →
      complete s (validateTarget (nnn.setWidth 16) u) =
        .next (haltedWith (.misalignedTarget (BitVec.ofNat 16 nnn.toNat)) s)) := by
  constructor
  · rintro rfl
    exact complete_validateTarget_outOfBounds (by decide)
  · intro hne hodd hp
    have hmax : nnn.toNat ≤ 0xFFE := by bv_omega
    rw [← toNat_setWidth_addr] at hmax hodd
    rw [BitVec.ofNat_toNat]
    exact complete_validateTarget_misaligned hc hmax hodd hp

end Transfer

/-! ### The stack instructions (R112, R114) -/

theorem exec_ret_underflow {s : State} (h : s.sp.val = 0) : exec .ret s = .next (haltedWith .stackUnderflow s) := by
  rw [exec, execRet, pop_underflow (s := s.advance) h]; rfl

/-- RET with `k + 1` entries is the transfer to the top one, with `k` left. -/
theorem exec_ret_eq {s : State} {k : Fin 16} (h : s.sp.val = k.val + 1) :
    exec .ret s = complete s (validateTarget s.stack[k.val] (s.advance.setStack s.stack k.castSucc)) := by
  have hpop : pop s.advance = .ok (s.stack[k.val], s.advance.setStack s.stack k.castSucc) := by
    have hpos : 0 < s.advance.sp.val := by rw [advance_sp]; omega
    rw [pop, dif_pos hpos]
    simp [h, Fin.castSucc, Fin.castAdd, Fin.castLE]
  rw [exec, execRet, hpop]; rfl

theorem exec_call_overflow {s : State} (nnn : Addr) (h : s.sp.val = 16) :
    exec (.call nnn) s = .next (haltedWith .stackOverflow s) := by
  rw [exec, execCall, push_overflow (s := s.advance) h]; rfl

/-- CALL with `k` entries is the transfer to `nnn`, with the return address pushed as entry `k`. -/
theorem exec_call_eq {s : State} (nnn : Addr) {k : Fin 16} (h : s.sp.val = k.val) :
    exec (.call nnn) s =
      complete s (validateTarget (nnn.setWidth 16) (s.advance.setStack (s.stack.set k.val (s.pc + 2)) k.succ)) := by
  have hpush : push s.advance.pc s.advance = .ok (s.advance.setStack (s.stack.set k.val (s.pc + 2)) k.succ) := by
    have hroom : s.advance.sp.val < 16 := by rw [advance_sp]; omega
    rw [push, dif_pos hroom]
    simp [h, Fin.succ]
  rw [exec, execCall, hpush]; rfl

/-! ### The target of JP V0 (R115) -/

theorem jumpOffsetReg_eq {nnn : Addr} {s : State} {r : Reg} (hv0 : s.cfg.jumpOffset = .v0 → r.val = 0)
    (hvx : s.cfg.jumpOffset = .vx → r.val = nnn.toNat / 0x100) : jumpOffsetReg nnn s = r := by
  apply Fin.ext
  unfold jumpOffsetReg
  cases hq : s.cfg.jumpOffset with
  | v0 => exact (hv0 hq).symm
  | vx =>
    have hlt := nnn.isLt
    rw [hvx hq, BitVec.val_toFin, BitVec.extractLsb'_toNat, Nat.shiftRight_eq_div_pow]
    omega

/-- The sum stays below 0x10FF, so it does not wrap. -/
theorem toNat_jumpTarget (nnn : Addr) (s : State) :
    (jumpTarget nnn s).toNat = nnn.toNat + (s.reg (jumpOffsetReg nnn s)).toNat := by
  unfold jumpTarget
  bv_omega

/-! ### SYS (R111) -/

theorem exec_sys_nop {s : State} (nnn : Addr) (h : s.cfg.sysPolicy = .nop) : exec (.sys nnn) s = .next s.advance := by
  rw [exec, execSys, h]; rfl

theorem exec_sys_illegal {s : State} (nnn : Addr) (h : s.cfg.sysPolicy = .illegal) :
    exec (.sys nnn) s = .next (haltedWith (.illegalOpcode (encode (.sys nnn))) s) := by
  rw [exec, execSys, h]; rfl

/-! ### The end of a skip (R116) -/

section Skip

variable {s : State} {c : Bool} {P : Prop} [Decidable P]

/-- A skip that passes a word exactly when `P` holds. -/
theorem skip_if (h : c = true ↔ P) :
    ∃ t, complete s (.ok (skipIf c s.advance)) = .next t ∧
      t.pc = (if P then s.pc + 4 else s.pc + 2) ∧ Frame {} s t := by
  refine ⟨_, complete_ok s _, ?_, frame_skip c s⟩
  simp only [skipIf_pc, advance_pc, h, BitVec.add_assoc]
  rfl

/-- A skip that passes a word exactly when `P` fails. -/
theorem skip_unless (h : c = true ↔ ¬P) :
    ∃ t, complete s (.ok (skipIf c s.advance)) = .next t ∧
      t.pc = (if P then s.pc + 2 else s.pc + 4) ∧ Frame {} s t := by
  simpa only [ite_not] using skip_if (s := s) h

end Skip

theorem beq_iff_toNat_eq (a b : Byte) : (a == b) = true ↔ a.toNat = b.toNat := by
  rw [beq_iff_eq, BitVec.toNat_inj]

theorem bne_iff_toNat_ne (a b : Byte) : (a != b) = true ↔ ¬a.toNat = b.toNat := by
  rw [bne_iff_ne, ne_eq, BitVec.toNat_inj]

end Sys2Proof.Machine

/-! ### The statements settled -/

namespace Sys2Proof.Proofs

open Sys2Proof.Machine Sys2Proof.Safety

/-- Settles O31: the depth decides between underflow and a transfer to the top entry (`exec_ret_eq`). -/
theorem returnPopsTheTarget : Obligations.ReturnPopsTheTarget := by
  intro s
  refine ⟨rfl, exec_ret_underflow, fun k hk => ?_⟩
  rw [exec_ret_eq hk]
  refine ⟨fun hvalid => ?_, complete_validateTarget_outOfBounds, complete_validateTarget_misaligned rfl⟩
  exact ⟨_, complete_validateTarget_ok rfl hvalid, rfl, rfl, rfl, frame_setStack_setPc _ _ _ s⟩

/-- Settles O33: the depth decides between overflow and a transfer with the return address pushed (`exec_call_eq`). -/
theorem callPushesTheReturnAddress : Obligations.CallPushesTheReturnAddress := by
  intro nnn s
  refine ⟨decode_of_encode_eq (wordA_eq_encodeA 0x2 nnn) rfl, exec_call_overflow nnn, fun k hk => ?_⟩
  rw [exec_call_eq nnn hk]
  refine ⟨fun hvalid => ?_, complete_validateTarget_nnn_fails rfl⟩
  rw [← toNat_setWidth_addr] at hvalid
  refine ⟨_, complete_validateTarget_ok rfl hvalid, toNat_setWidth_addr nnn, rfl, Vector.getElem_set_self k.isLt,
    fun j hj => ?_, frame_setStack_setPc _ _ _ s⟩
  exact Vector.getElem_set_ne k.isLt j.isLt fun h => hj (Fin.ext h.symm)

/-- Settles O35: from the rules of CALL and RET, as the return address is the entry that RET pops. -/
theorem returnUndoesCall : Obligations.ReturnUndoesCall := by
  intro nnn s hroom hvalid hback
  obtain ⟨top, hdepth⟩ : ∃ top : Fin 16, s.sp.val = top.val := ⟨⟨s.sp.val, hroom⟩, rfl⟩
  obtain ⟨_, _, hcalls⟩ := callPushesTheReturnAddress nnn s
  obtain ⟨hgoes, _⟩ := hcalls top hdepth
  obtain ⟨t, hcall, _, htsp, htop, hothers, hframe⟩ := hgoes hvalid
  obtain ⟨_, _, hrets⟩ := returnPopsTheTarget t
  obtain ⟨hreturns, _⟩ := hrets top htsp
  obtain ⟨u, hret, hupc, husp, hustack, hframe'⟩ := hreturns (by rwa [hframe.cfg, htop])
  refine ⟨t, u, hcall, hret, hupc.trans htop, Fin.ext (husp.trans hdepth.symm), hframe.trans hframe', fun k => ?_⟩
  simp only [hustack, hdepth]
  by_cases hk : k = top
  · rw [hk, if_pos rfl]; exact htop
  · rw [if_neg fun h => hk (Fin.ext h)]; exact hothers k hk

/-- Settles O32: JP is the transfer to `nnn` after the advance. -/
theorem jumpGoesToTheTarget : Obligations.JumpGoesToTheTarget := by
  intro nnn s
  refine ⟨decode_of_encode_eq (wordA_eq_encodeA 0x1 nnn) rfl, fun hvalid => ?_, complete_validateTarget_nnn_fails rfl⟩
  rw [← toNat_setWidth_addr] at hvalid
  exact ⟨_, complete_validateTarget_ok rfl hvalid, toNat_setWidth_addr nnn, frame_setPc _ s⟩

/-- Settles O34: JP V0 is the transfer to `jumpTarget`, which is the unmasked sum (`toNat_jumpTarget`). -/
theorem jumpWithOffsetAddsTheRegister : Obligations.JumpWithOffsetAddsTheRegister := by
  intro nnn s r t hv0 hvx ht
  obtain rfl : (jumpTarget nnn s).toNat = t := by rw [toNat_jumpTarget, jumpOffsetReg_eq hv0 hvx, ht]
  rw [BitVec.ofNat_toNat, BitVec.setWidth_eq]
  refine ⟨decode_of_encode_eq (wordA_eq_encodeA 0xB nnn) rfl, fun hvalid => ?_,
    complete_validateTarget_outOfBounds, complete_validateTarget_misaligned rfl⟩
  exact ⟨_, complete_validateTarget_ok rfl hvalid, rfl, frame_setPc _ s⟩

/-- Settles O30: by the policy (`exec_sys_nop`, `exec_sys_illegal`). -/
theorem sysIsANoOpOrIllegal : Obligations.SysIsANoOpOrIllegal := by
  intro nnn s
  have hword : wordA 0x0 nnn.toNat = encode (.sys nnn) := wordA_eq_encodeA 0x0 nnn
  rw [hword]
  refine ⟨fun hcls hret => decode_encode ?_, fun hp => ?_, exec_sys_illegal nnn⟩
  · rw [Instr.wellFormed, decide_eq_true hcls, decide_eq_true hret]; rfl
  · exact ⟨_, exec_sys_nop nnn hp, rfl, frame_skip false s⟩

/-- Settles O36: each of the four is a skip whose condition compares bytes as numbers (`skip_if`, `skip_unless`); under
the strict policy the decoder rejects a low nibble that is not 0. -/
theorem skipsCompareRegisters : Obligations.SkipsCompareRegisters := by
  intro x y kk n s
  have hse : wordRR 0x5 x.val y.val n.toNat = encode (.seReg x y n) := wordRR_eq_encodeRRN 0x5 x y n
  have hsne : wordRR 0x9 x.val y.val n.toNat = encode (.sneReg x y n) := wordRR_eq_encodeRRN 0x9 x y n
  rw [hse, hsne]
  refine ⟨decode_of_encode_eq (wordRB_eq_encodeRB 0x3 x kk) rfl, decode_of_encode_eq (wordRB_eq_encodeRB 0x4 x kk) rfl,
    fun hn => ?_, skip_if (beq_iff_toNat_eq _ _), skip_unless (bne_iff_toNat_ne _ _), skip_if (beq_iff_toNat_eq _ _),
    skip_unless (bne_iff_toNat_ne _ _), fun hp hn => ?_⟩
  · have haccepted : lowNibbleAccepted s.cfg n = true := by simpa [lowNibbleAccepted] using hn
    exact ⟨decode_encode haccepted, decode_encode haccepted⟩
  · have hrejected : lowNibbleAccepted s.cfg n = false := by simpa [lowNibbleAccepted, hp] using hn
    constructor <;> simp [encode, decode, decode5_9, hrejected]

end Sys2Proof.Proofs

/-! SUPPORT and PROOFS for the statements about registers and arithmetic (41_alu.md): what an instruction leaves that
writes one register, or one register and then `VF`, and the flags as numbers. -/

namespace Sys2Proof.Machine

open Sys2Proof.Safety

/-! ### The flags as numbers (10_state.md R21) -/

theorem toNat_flagByte (c : Bool) : (flagByte c).toNat = c.toNat := by
  cases c <;> rfl

theorem toNat_carryOut (a b : Byte) : (carryOut a b).toNat = if a.toNat + b.toNat > 0xFF then 1 else 0 :=
  Bool.cond_decide _ _ _

theorem toNat_noBorrow (a b : Byte) : (noBorrow a b).toNat = if a.toNat ≥ b.toNat then 1 else 0 :=
  Bool.cond_decide _ _ _

theorem toNat_shiftedOutRight (a : Byte) : (shiftedOutRight a).toNat = a.toNat % 2 := by
  rw [shiftedOutRight, BitVec.getLsbD, Nat.toNat_testBit, pow_zero, Nat.div_one]

/-- Bit 7 is all that is left of a byte after seven halvings. -/
theorem toNat_shiftedOutLeft (a : Byte) : (shiftedOutLeft a).toNat = a.toNat / 128 := by
  rw [shiftedOutLeft, BitVec.getLsbD, Nat.toNat_testBit]
  have hlt := a.isLt
  omega

/-! ### The results as numbers -/

theorem toNat_sub_eq_emod (a b : Byte) : ((a - b).toNat : Int) = (a.toNat - b.toNat : Int) % 256 := by
  bv_omega

theorem toNat_shiftRight_one (a : Byte) : (a >>> 1).toNat = a.toNat / 2 := by
  rw [BitVec.toNat_ushiftRight, Nat.shiftRight_one]

theorem toNat_shiftLeft_one (a : Byte) : (a <<< 1).toNat = 2 * a.toNat % 256 := by
  rw [BitVec.toNat_shiftLeft, Nat.shiftLeft_eq_mul_pow, mul_comm, pow_one]

theorem shiftSource_eq {x y : Reg} {s : State} {source : Byte} (hvx : s.cfg.shiftSource = .vx → source = s.reg x)
    (hvy : s.cfg.shiftSource = .vy → source = s.reg y) : shiftSource x y s = source := by
  unfold shiftSource
  cases hq : s.cfg.shiftSource with
  | vx => exact (hvx hq).symm
  | vy => exact (hvy hq).symm

/-! ### What an instruction leaves that writes one register -/

theorem writes_register (s : State) (x : Reg) (b : Byte) :
    ∃ t, complete s (.ok (s.advance.setReg x b)) = .next t ∧
      t.reg x = b ∧ t.pc = s.pc + 2 ∧ Frame { regs := [x] } s t :=
  ⟨_, complete_ok s _, reg_setReg_same _ x b, rfl, frame_reg x b s⟩

theorem frame_countDraw_setReg (x : Reg) (b : Byte) (s : State) :
    Frame { regs := [x], draws := true } s (s.advance.countDraw.setReg x b) := by
  constructor <;> simp
  exact fun r hr => reg_setReg_other _ b hr

/-! ### What an instruction leaves that writes one register and then `VF` (R21) -/

theorem reg_setFlag_self (s : State) (c : Bool) : (s.setFlag c).reg VF = flagByte c :=
  reg_setReg_same s VF (flagByte c)

/-- The flag is written last, so it hides the result in `VF` and leaves it in any other register. -/
theorem writes_register_then_flag (s : State) (x : Reg) (b : Byte) (c : Bool) :
    ∃ t, complete s (.ok ((s.advance.setReg x b).setFlag c)) = .next t ∧ t.pc = s.pc + 2 ∧
      (x ≠ VF → t.reg x = b) ∧ t.reg VF = flagByte c ∧ Frame { regs := [x, VF] } s t := by
  refine ⟨_, complete_ok s _, rfl, fun hx => ?_, reg_setFlag_self _ c, frame_reg_flag x b c s⟩
  rw [reg_setFlag, if_neg hx, reg_setReg_same]

/-- The same for a result and a flag known as numbers. -/
theorem writes_number_then_flag (s : State) (x : Reg) {b : Byte} {c : Bool} {v f : Nat} (hb : b.toNat = v)
    (hc : c.toNat = f) :
    ∃ t, complete s (.ok ((s.advance.setReg x b).setFlag c)) = .next t ∧ t.pc = s.pc + 2 ∧
      (x ≠ VF → (t.reg x).toNat = v) ∧ (t.reg VF).toNat = f ∧ Frame { regs := [x, VF] } s t := by
  obtain ⟨t, hexec, hpc, hx, hflag, hframe⟩ := writes_register_then_flag s x b c
  refine ⟨t, hexec, hpc, fun hne => ?_, ?_, hframe⟩
  · rw [hx hne, hb]
  · rw [hflag, toNat_flagByte, hc]

/-- SUB, and SUBN with the operands swapped (R148, R150). -/
theorem writes_difference_then_noBorrow (s : State) (x : Reg) (a b : Byte) :
    ∃ t, complete s (.ok ((s.advance.setReg x (a - b)).setFlag (noBorrow a b))) = .next t ∧ t.pc = s.pc + 2 ∧
      (x ≠ VF → ((t.reg x).toNat : Int) = (a.toNat - b.toNat : Int) % 256) ∧
      (t.reg VF).toNat = (if a.toNat ≥ b.toNat then 1 else 0) ∧ Frame { regs := [x, VF] } s t := by
  obtain ⟨t, hexec, hpc, hx, hflag, hframe⟩ := writes_register_then_flag s x (a - b) (noBorrow a b)
  refine ⟨t, hexec, hpc, fun hne => ?_, ?_, hframe⟩
  · rw [hx hne, toNat_sub_eq_emod]
  · rw [hflag, toNat_flagByte, toNat_noBorrow]

/-! ### What a logic instruction leaves (R144 to R146) -/

theorem setLogicFlag_of_reset {s : State} (h : s.cfg.logicVfReset = true) : s.setLogicFlag = s.setFlag false :=
  if_pos h

theorem setLogicFlag_of_no_reset {s : State} (h : s.cfg.logicVfReset = false) : s.setLogicFlag = s :=
  if_neg (by rw [h]; decide)

/-- By the quirk, a logic instruction is one that writes a flag, which is false, or one that writes none. -/
theorem writes_register_then_logicFlag (s : State) (x : Reg) (b : Byte) :
    ∃ t, complete s (.ok (s.advance.setReg x b).setLogicFlag) = .next t ∧ t.pc = s.pc + 2 ∧
      (s.cfg.logicVfReset = true → t.reg VF = 0 ∧ (x ≠ VF → t.reg x = b) ∧ Frame { regs := [x, VF] } s t) ∧
      (s.cfg.logicVfReset = false → t.reg x = b ∧ Frame { regs := [x] } s t) := by
  refine ⟨_, complete_ok s _, setLogicFlag_pc _, fun hq => ?_, fun hq => ?_⟩
  · rw [setLogicFlag_of_reset (s := s.advance.setReg x b) hq]
    obtain ⟨_, hexec, _, hx, hflag, hframe⟩ := writes_register_then_flag s x b false
    cases hexec
    exact ⟨hflag, hx, hframe⟩
  · rw [setLogicFlag_of_no_reset (s := s.advance.setReg x b) hq]
    exact ⟨reg_setReg_same _ x b, frame_reg x b s⟩

end Sys2Proof.Machine

/-! ### The statements settled -/

namespace Sys2Proof.Proofs

open Sys2Proof.Machine Sys2Proof.Safety

/-- Settles O37: each of the three writes one register (`writes_register`). -/
theorem immediateAndCopyWriteTheDestination : Obligations.ImmediateAndCopyWriteTheDestination := by
  intro x y kk s
  refine ⟨decode_of_encode_eq (wordRB_eq_encodeRB 0x6 x kk) rfl, decode_of_encode_eq (wordRB_eq_encodeRB 0x7 x kk) rfl,
    decode_of_encode_eq (wordRR_eq_encodeRRN 0x8 x y 0x0) rfl, writes_register s x kk, ?_, writes_register s x (s.reg y)⟩
  obtain ⟨t, hexec, hx, hpc, hframe⟩ := writes_register s x (s.reg x + kk)
  exact ⟨t, hexec, by rw [hx, BitVec.toNat_add], hpc, hframe⟩

/-- Settles O38: the three differ in their word and their result alone (`writes_register_then_logicFlag`). -/
theorem logicWritesTheDestinationAndMaybeTheFlag : Obligations.LogicWritesTheDestinationAndMaybeTheFlag := by
  rintro x y s i n result (⟨rfl, rfl, rfl⟩ | ⟨rfl, rfl, rfl⟩ | ⟨rfl, rfl, rfl⟩)
  · exact ⟨decode_of_encode_eq (wordRR_eq_encodeRRN 0x8 x y 0x1) rfl, writes_register_then_logicFlag s x _⟩
  · exact ⟨decode_of_encode_eq (wordRR_eq_encodeRRN 0x8 x y 0x2) rfl, writes_register_then_logicFlag s x _⟩
  · exact ⟨decode_of_encode_eq (wordRR_eq_encodeRRN 0x8 x y 0x3) rfl, writes_register_then_logicFlag s x _⟩

/-- Settles O39: the sum is taken modulo 256, and its carry is the flag (`writes_number_then_flag`). -/
theorem addReportsTheCarry : Obligations.AddReportsTheCarry := by
  intro x y s
  exact ⟨decode_of_encode_eq (wordRR_eq_encodeRRN 0x8 x y 0x4) rfl,
    writes_number_then_flag s x (BitVec.toNat_add _ _) (toNat_carryOut _ _)⟩

/-- Settles O40: SUBN is SUB with the operands swapped (`writes_difference_then_noBorrow`). -/
theorem subtractReportsNoBorrow : Obligations.SubtractReportsNoBorrow := by
  intro x y s
  exact ⟨decode_of_encode_eq (wordRR_eq_encodeRRN 0x8 x y 0x5) rfl,
    decode_of_encode_eq (wordRR_eq_encodeRRN 0x8 x y 0x7) rfl,
    writes_difference_then_noBorrow s x (s.reg x) (s.reg y), writes_difference_then_noBorrow s x (s.reg y) (s.reg x)⟩

/-- Settles O41: the quirk fixes the source; the bit shifted out is the flag (`writes_number_then_flag`). -/
theorem shiftReportsTheBitShiftedOut : Obligations.ShiftReportsTheBitShiftedOut := by
  intro x y s source hvx hvy
  obtain rfl : shiftSource x y s = source := shiftSource_eq hvx hvy
  exact ⟨decode_of_encode_eq (wordRR_eq_encodeRRN 0x8 x y 0x6) rfl,
    decode_of_encode_eq (wordRR_eq_encodeRRN 0x8 x y 0xE) rfl,
    writes_number_then_flag s x (toNat_shiftRight_one _) (toNat_shiftedOutRight _),
    writes_number_then_flag s x (toNat_shiftLeft_one _) (toNat_shiftedOutLeft _)⟩

/-- Settles O42: the masked byte for the draw at the counter; under mask 0 it is 0. -/
theorem randomMasksTheDrawnByte : Obligations.RandomMasksTheDrawnByte := by
  intro x kk s
  have hx : (s.advance.countDraw.setReg x (Config.draw8 s.draws &&& kk)).reg x = Config.draw8 s.draws &&& kk :=
    reg_setReg_same _ x _
  refine ⟨decode_of_encode_eq (wordRB_eq_encodeRB 0xC x kk) rfl, _, complete_ok s _, rfl, hx, fun hkk => ?_, rfl,
    frame_countDraw_setReg x _ s⟩
  rw [hx, hkk]
  exact BitVec.and_zero

end Sys2Proof.Proofs

/-! SUPPORT and PROOFS for the statements about the index register and memory (42_index_memory.md): what an instruction
leaves that writes `I`, and the stores and loads whose `k`-th byte is at `EA(k)` (R176). -/

namespace Sys2Proof.Machine

open Sys2Proof.Safety

/-! ### Writing `I`, and the flag of ADD I (R170, R171) -/

theorem frame_setIndex (w : Word) (s : State) : Frame { index := true } s (s.advance.setIndex w) := by
  constructor <;> simp

theorem frame_setIndex_flag (w : Word) (c : Bool) (s : State) :
    Frame { index := true, regs := [VF] } s ((s.advance.setIndex w).setFlag c) := by
  constructor <;> simp
  intro r hr
  rw [reg_setFlag, if_neg hr, reg_setIndex, reg_advance]

theorem setIndexFlag_of_quirk {s : State} (c : Bool) (h : s.cfg.indexOverflowVf = true) :
    s.setIndexFlag c = s.setFlag c :=
  if_pos h

theorem setIndexFlag_of_no_quirk {s : State} (c : Bool) (h : s.cfg.indexOverflowVf = false) : s.setIndexFlag c = s :=
  if_neg (by rw [h]; decide)

theorem toNat_indexOverflow (i : Word) (b : Byte) :
    (indexOverflow i b).toNat = if i.toNat + b.toNat > 0xFFF then 1 else 0 :=
  Bool.cond_decide _ _ _

/-- The sum of ADD I wraps at 16 bits. -/
theorem toNat_add_setWidth (i : Word) (b : Byte) :
    (i + b.setWidth 16).toNat = (i.toNat + b.toNat) % 0x10000 := by
  rw [BitVec.toNat_add, BitVec.toNat_setWidth_of_le (by decide)]

/-! ### The font digit (R172) -/

theorem fontDigit_of_mask {s : State} (b : Byte) (h : s.cfg.fontDigit = .mask) : fontDigit b s = b.toNat % 16 := by
  rw [fontDigit, h]
  exact BitVec.extractLsb'_toNat 0 4 b

theorem fontDigit_of_unmasked {s : State} (b : Byte) (h : s.cfg.fontDigit = .unmasked) : fontDigit b s = b.toNat := by
  rw [fontDigit, h]

theorem fontDigit_le (b : Byte) (s : State) : fontDigit b s ≤ b.toNat := by
  cases h : s.cfg.fontDigit with
  | mask => rw [fontDigit_of_mask b h]; exact Nat.mod_le _ _
  | unmasked => rw [fontDigit_of_unmasked b h]

/-- The address of a digit stays far inside 16 bits, so it does not wrap. -/
theorem toNat_fontAddress (b : Byte) (s : State) :
    (fontAddress b s).toNat = s.cfg.fontBase.val + 5 * fontDigit b s := by
  have hdigit := fontDigit_le b s
  have hbyte := b.isLt
  have hbase := s.cfg.fontBase.isLt
  rw [fontAddress, BitVec.toNat_ofNat]
  omega

/-! ### `I` after Fx55 and Fx65 (R174, R175) -/

theorem toNat_indexAfter_plusXPlus1 {s : State} (x : Reg) (h : s.cfg.loadStoreIndex = .plusXPlus1) :
    (indexAfter x s).toNat = (s.i.toNat + x.val + 1) % 0x10000 := by
  rw [indexAfter, h]
  exact BitVec.toNat_ofNat _ _

theorem toNat_indexAfter_plusX {s : State} (x : Reg) (h : s.cfg.loadStoreIndex = .plusX) :
    (indexAfter x s).toNat = (s.i.toNat + x.val) % 0x10000 := by
  rw [indexAfter, h]
  exact BitVec.toNat_ofNat _ _

/-! ### A store whose `k`-th byte goes to `EA(k)` (R57, R58) -/

section Store

variable {s : State} {bs : List Byte} {n : Nat}

theorem writeBytes_at_index (hlen : bs.length = n) (h : storable s.cfg (ea s.i 0) n) :
    writeBytes (ea s.i 0) bs s.advance = .ok (s.advance.loadBytes (ea s.i 0) bs) := by
  subst hlen
  obtain ⟨hmax, hlow⟩ := h
  exact writeBytes_ok _ bs s.advance hmax hlow

/-- A store of at most 16 bytes that runs past 0xFFF starts above the protected region, so 0x1000 fails first. -/
theorem writeBytes_at_index_outOfBounds (hlen : bs.length = n + 1) (hn : n < 16) (h : 0xFFF < ea s.i n) :
    writeBytes (ea s.i 0) bs s.advance = .error (.outOfBounds 0x1000) := by
  rw [ea_add] at h
  have hstart := ea_zero_le s.i
  exact writeBytes_outOfBounds _ bs s.advance (by omega) (by omega) (.inl (by omega))

theorem writeBytes_at_index_protected (hlen : bs.length = n + 1) (h : ea s.i 0 < 0x200)
    (hp : s.cfg.lowWrite = .fault) :
    writeBytes (ea s.i 0) bs s.advance = .error (.protectedWrite (BitVec.ofNat 12 (ea s.i 0))) := by
  obtain ⟨b, rest, rfl⟩ := List.exists_cons_of_length_eq_add_one hlen
  exact writeBytes_protected _ b rest s.advance h hp

theorem readByte_loadBytes_at_index (s : State) {k : Nat} (i : Word) (h : k < bs.length) :
    (s.loadBytes (ea i 0) bs).readByte (ea i k) = bs.getD k 0 := by
  rw [ea_add i k, readByte_loadBytes, if_pos (by omega), Nat.add_sub_cancel_left]

/-- The addresses of a store are those of the first effective addresses. -/
theorem mem_effectiveAddresses {i : Word} {a : Nat} (hlo : ea i 0 ≤ a) (hhi : a < ea i 0 + n) :
    a ∈ (List.range n).map (ea i) :=
  List.mem_map.mpr ⟨a - ea i 0, List.mem_range.mpr (by omega), by rw [ea_add]; omega⟩

theorem frame_store_setIndex (s : State) (w : Word) (hlen : bs.length = n) :
    Frame { index := true, bytes := (List.range n).map (ea s.i) } s
      ((s.advance.loadBytes (ea s.i 0) bs).setIndex w) :=
  frame_loadBytes s _ bs _ (fun _ hlo hhi => mem_effectiveAddresses hlo (hlen ▸ hhi)) w

/-- A store alone keeps `I`. -/
theorem frame_store (s : State) (hlen : bs.length = n) :
    Frame { bytes := (List.range n).map (ea s.i) } s (s.advance.loadBytes (ea s.i 0) bs) :=
  { frame_store_setIndex s s.i hlen with index := fun _ => loadBytes_i _ _ _ }

end Store

/-! ### The decimal digits (R173) -/

/-- A stored digit is read back as the number it is: no digit is above the byte it belongs to. -/
theorem toNat_readByte_digit (s : State) (i : Word) {b : Byte} {k d : Nat}
    (hk : (bcdDigits b)[k]? = some (BitVec.ofNat 8 d)) (hd : d ≤ b.toNat) :
    ((s.loadBytes (ea i 0) (bcdDigits b)).readByte (ea i k)).toNat = d := by
  obtain ⟨hlt, hget⟩ := List.getElem?_eq_some_iff.mp hk
  rw [readByte_loadBytes_at_index s i hlt, List.getD_eq_getElem _ _ hlt, hget]
  exact Nat.mod_eq_of_lt (Nat.lt_of_le_of_lt hd b.isLt)

/-! ### The bytes at `EA(0)`, `EA(1)`, .. and a load of them into the registers (R175) -/

/-- The first `n` bytes of the I-relative addressing mode (R58, R176). -/
def State.bytesAtIndex (s : State) (n : Nat) : List Byte := (List.range n).map fun k => s.readByte (ea s.i k)

theorem length_bytesAtIndex (s : State) (n : Nat) : (s.bytesAtIndex n).length = n := by
  simp [State.bytesAtIndex]

theorem getD_bytesAtIndex (s : State) {k n : Nat} (h : k < n) : (s.bytesAtIndex n).getD k 0 = s.readByte (ea s.i k) := by
  simp [State.bytesAtIndex, h]

theorem readBytes_at_index {s : State} {n : Nat} (h : ea s.i n ≤ 0x1000) :
    readBytes (ea s.i 0) n s = .ok (s.bytesAtIndex n) := by
  rw [ea_add] at h
  simp only [readBytes_ok _ n s h, State.bytesAtIndex, ← ea_add]

theorem readBytes_at_index_outOfBounds {s : State} {n : Nat} (h : 0x1000 < ea s.i n) :
    readBytes (ea s.i 0) n s = .error (.outOfBounds 0x1000) := by
  rw [ea_add] at h
  exact readBytes_error _ n s (Nat.le_succ_of_le (ea_zero_le s.i)) h

/-- The registers up to `Vx` hold the bytes, the others what they held. -/
theorem reg_load (s : State) (x k : Reg) :
    (s.advance.setRegsFrom 0 (s.bytesAtIndex (x.val + 1))).reg k =
      if k.val ≤ x.val then s.readByte (ea s.i k.val) else s.reg k := by
  rw [reg_setRegsFrom, length_bytesAtIndex]
  by_cases hk : k.val ≤ x.val
  · rw [if_pos hk, if_pos (by omega), Nat.sub_zero, getD_bytesAtIndex s (by omega)]
  · rw [if_neg hk, if_neg (by omega), reg_advance]

theorem frame_load (s : State) (x : Reg) (w : Word) :
    Frame { index := true, regs := (List.finRange 16).filter (fun k => decide (k ≤ x)) } s
      ((s.advance.setRegsFrom 0 (s.bytesAtIndex (x.val + 1))).setIndex w) := by
  constructor <;> simp
  intro k hk
  rw [reg_load, if_neg (Nat.not_le_of_lt hk)]

end Sys2Proof.Machine

/-! ### The statements settled -/

namespace Sys2Proof.Proofs

open Sys2Proof.Machine Sys2Proof.Safety

/-- Settles O44: both write `I`; ADD I writes its flag after that, or no flag, by the quirk. -/
theorem indexIsLoadedAndAdded : Obligations.IndexIsLoadedAndAdded := by
  intro nnn x s
  refine ⟨decode_of_encode_eq (wordA_eq_encodeA 0xA nnn) rfl, decode_of_encode_eq (wordRB_eq_encodeRB 0xF x 0x1E) rfl,
    ⟨_, complete_ok s _, toNat_setWidth_addr nnn, rfl, frame_setIndex _ s⟩,
    ⟨_, complete_ok s _, ?_, setIndexFlag_pc _ _, fun hq => ?_, fun hq => ?_⟩⟩
  · rw [setIndexFlag_i, setIndex_i, toNat_add_setWidth]
  · rw [setIndexFlag_of_quirk (s := s.advance.setIndex _) _ hq, reg_setFlag_self, toNat_flagByte, toNat_indexOverflow]
    exact ⟨rfl, frame_setIndex_flag _ _ s⟩
  · rw [setIndexFlag_of_no_quirk (s := s.advance.setIndex _) _ hq]
    exact frame_setIndex _ s

/-- Settles O45: `I` is the address of the digit, which the policy picks (`toNat_fontAddress`). -/
theorem indexPointsAtTheFontDigit : Obligations.IndexPointsAtTheFontDigit := by
  intro x s
  refine ⟨decode_of_encode_eq (wordRB_eq_encodeRB 0xF x 0x29) rfl, _, complete_ok s _, rfl, fun hp => ?_, fun hp => ?_,
    frame_setIndex _ s⟩
  · rw [setIndex_i, toNat_fontAddress, fontDigit_of_mask _ hp]
  · rw [setIndex_i, toNat_fontAddress, fontDigit_of_unmasked _ hp]

/-- Settles O46: the digits are a store of three bytes at the index, which completes or fails as a whole. -/
theorem bcdStoresThreeDigits : Obligations.BcdStoresThreeDigits := by
  intro x s
  have hlen : (bcdDigits (s.reg x)).length = 2 + 1 := rfl
  refine ⟨decode_of_encode_eq (wordRB_eq_encodeRB 0xF x 0x33) rfl, fun hs => ?_, fun hlow hp => ?_, fun hmax => ?_⟩
  · rw [exec, execLdB, writeBytes_at_index hlen hs]
    exact ⟨_, complete_ok s _, loadBytes_pc _ _ _, toNat_readByte_digit _ _ rfl (Nat.div_le_self _ _),
      toNat_readByte_digit _ _ rfl ((Nat.mod_le _ _).trans (Nat.div_le_self _ _)),
      toNat_readByte_digit _ _ rfl (Nat.mod_le _ _), frame_store s hlen⟩
  · rw [exec, execLdB, writeBytes_at_index_protected hlen hlow hp]; rfl
  · rw [exec, execLdB, writeBytes_at_index_outOfBounds hlen (by decide) hmax]; rfl

/-- Settles O47: the registers are a store of `x + 1` bytes at the index; `I` is written after it. -/
theorem dumpStoresTheRegisters : Obligations.DumpStoresTheRegisters := by
  intro x s
  have hlen := length_regsUpTo s x
  refine ⟨decode_of_encode_eq (wordRB_eq_encodeRB 0xF x 0x55) rfl, fun hs => ?_, fun hlow hp => ?_, fun hmax => ?_⟩
  · rw [exec, execLdMemVx, writeBytes_at_index hlen hs, ok_bind]
    refine ⟨_, complete_ok s _, loadBytes_pc _ _ _, fun k hk => ?_, indexAfter_unchanged x,
      toNat_indexAfter_plusXPlus1 x, toNat_indexAfter_plusX x, frame_store_setIndex s _ hlen⟩
    rw [readByte_setIndex, readByte_loadBytes_at_index _ _ (hlen ▸ Nat.lt_succ_of_le hk), getD_regsUpTo s x k hk]
  · rw [exec, execLdMemVx, writeBytes_at_index_protected hlen hlow hp]; rfl
  · rw [exec, execLdMemVx, writeBytes_at_index_outOfBounds hlen x.isLt hmax]; rfl

/-- Settles O48: the bytes at the index go to `V0` to `Vx` (`reg_load`); `I` is written after the load. -/
theorem loadFillsTheRegisters : Obligations.LoadFillsTheRegisters := by
  intro x s
  have hend : ea s.i (x.val + 1) = ea s.i x.val + 1 := rfl
  refine ⟨decode_of_encode_eq (wordRB_eq_encodeRB 0xF x 0x65) rfl, fun hs => ?_, fun hmax => ?_⟩
  · have hread : readBytes (ea s.i 0) (x.val + 1) s.advance = .ok (s.bytesAtIndex (x.val + 1)) :=
      readBytes_at_index (s := s.advance) (hend.trans_le (Nat.succ_le_succ hs))
    rw [exec, execLdVxMem, hread, ok_bind]
    refine ⟨_, complete_ok s _, setRegsFrom_pc _ _ _, fun k hk => ?_, indexAfter_unchanged x,
      toNat_indexAfter_plusXPlus1 x, toNat_indexAfter_plusX x, frame_load s x _⟩
    rw [reg_setIndex, reg_load, if_pos (Fin.le_def.mp hk)]
  · have hread : readBytes (ea s.i 0) (x.val + 1) s.advance = .error (.outOfBounds 0x1000) :=
      readBytes_at_index_outOfBounds (s := s.advance) (hend ▸ Nat.succ_lt_succ hmax)
    rw [exec, execLdVxMem, hread]; rfl

end Sys2Proof.Proofs

/-! SUPPORT and PROOFS for the statements about the display (43_display.md): a sprite drawn in closed form, and what DRW
leaves, told by the sprite bit that falls on each pixel. -/

namespace Sys2Proof.Machine

open Sys2Proof.Safety

/-! ### The sprite bit that falls on a pixel (R191) -/

/-- Neither the 8 columns of a sprite nor at most 32 rows wrap onto themselves, so at most one bit falls on a pixel. -/
theorem spriteBit_eq_true_iff {cx cy : Byte} {h : Nat} {b : Nat → Byte} {c : Fin 64} {r : Fin 32} (hh : h ≤ 32) :
    spriteBit cx cy h b c r = true ↔ ∃ row col, row < h ∧ col < 8 ∧ c = Fin.ofNat 64 (cx.toNat + col) ∧
      r = Fin.ofNat 32 (cy.toNat + row) ∧ (b row).getLsbD (7 - col) = true := by
  have hcol : ∀ col < 8, c = Fin.ofNat 64 (cx.toNat + col) ↔ (c.val + 64 - cx.toNat % 64) % 64 = col := by
    intro col hlt
    rw [Fin.ext_iff, Fin.val_ofNat]
    omega
  have hrow : ∀ row < h, r = Fin.ofNat 32 (cy.toNat + row) ↔ (r.val + 32 - cy.toNat % 32) % 32 = row := by
    intro row hlt
    rw [Fin.ext_iff, Fin.val_ofNat]
    omega
  simp only [spriteBit, Bool.and_eq_true, decide_eq_true_eq]
  constructor
  · rintro ⟨⟨hc, hr⟩, hbit⟩
    exact ⟨_, _, hr, hc, (hcol _ hc).mpr rfl, (hrow _ hr).mpr rfl, hbit⟩
  · rintro ⟨row, col, hr, hc, hceq, hreq, hbit⟩
    rw [(hcol col hc).mp hceq, (hrow row hr).mp hreq]
    exact ⟨⟨hc, hr⟩, hbit⟩

/-- Only the bytes of the sprite matter. -/
theorem spriteBit_congr {cx cy : Byte} {h : Nat} {b b' : Nat → Byte} (hb : ∀ k < h, b k = b' k) (c : Fin 64)
    (r : Fin 32) : spriteBit cx cy h b c r = spriteBit cx cy h b' c r := by
  unfold spriteBit
  by_cases hrow : (r.val + 32 - cy.toNat % 32) % 32 < h
  · simp only [hb _ hrow]
  · simp only [hrow, decide_false, Bool.and_false, Bool.false_and]

/-! ### A sprite drawn (R191) -/

section Sprite

variable {bytes : List Byte} (h : bytes.length ≤ 32) (d : Display) (cx cy : Byte)
include h

theorem any_allDots_eq_spriteBit (c : Fin 64) (r : Fin 32) :
    (allDots cx cy 0 bytes).any (fun p => decide (p.1 = (c, r)) && p.2) =
      spriteBit cx cy bytes.length (fun k => bytes.getD k 0) c r := by
  rw [Bool.eq_iff_iff, List.any_eq_true, spriteBit_eq_true_iff h]
  simp only [mem_allDots, Bool.and_eq_true, decide_eq_true_eq, Nat.zero_add]
  constructor
  · rintro ⟨_, ⟨row, col, hrow, hcol, rfl⟩, hpixel, hbit⟩
    obtain ⟨hc, hr⟩ := Prod.mk.inj hpixel
    exact ⟨row, col, hrow, hcol, hc.symm, hr.symm, hbit⟩
  · rintro ⟨row, col, hrow, hcol, rfl, rfl, hbit⟩
    exact ⟨_, ⟨row, col, hrow, hcol, rfl⟩, rfl, hbit⟩

theorem pixel_drawSprite (c : Fin 64) (r : Fin 32) :
    pixel (drawSprite d cx cy bytes).1 c r =
      (pixel d c r ^^ spriteBit cx cy bytes.length (fun k => bytes.getD k 0) c r) := by
  rw [drawSprite, drawRows_eq, (paint _ (nodup_allDots cx cy 0 bytes h) (d, false)).1, any_allDots_eq_spriteBit h]

theorem collision_drawSprite :
    (drawSprite d cx cy bytes).2 = true ↔ ∃ (c : Fin 64) (r : Fin 32), pixel d c r = true ∧
      spriteBit cx cy bytes.length (fun k => bytes.getD k 0) c r = true := by
  rw [drawSprite, drawRows_eq, (paint _ (nodup_allDots cx cy 0 bytes h) (d, false)).2, Bool.false_or]
  simp only [← any_allDots_eq_spriteBit h, List.any_eq_true, Bool.and_eq_true, decide_eq_true_eq]
  constructor
  · rintro ⟨p, hp, hset, hbit⟩
    exact ⟨p.1.1, p.1.2, hset, p, hp, rfl, hbit⟩
  · rintro ⟨c, r, hset, p, hp, hpixel, hbit⟩
    exact ⟨p, hp, by rw [hpixel]; exact hset, hbit⟩

end Sprite

/-! ### Frames of the display and the flag -/

theorem frame_setDisplay (d : Display) (s : State) : Frame { display := true } s (s.advance.setDisplay d) := by
  constructor <;> simp

theorem frame_setFlag (hit : Bool) (s : State) : Frame { regs := [VF] } s (s.advance.setFlag hit) :=
  frame_reg VF (flagByte hit) s

theorem frame_setDisplay_setFlag (d : Display) (hit : Bool) (s : State) :
    Frame { regs := [VF], display := true } s ((s.advance.setDisplay d).setFlag hit) := by
  constructor <;> simp
  intro q hq
  rw [reg_setFlag, if_neg hq, reg_setDisplay, reg_advance]

/-! ### What DRW leaves (R192) -/

/-- The bit that `DRW Vx, Vy, n` draws on a pixel in state `s`. -/
def State.drawnBit (s : State) (x y : Reg) (n : Nibble) (c : Fin 64) (r : Fin 32) : Bool :=
  spriteBit (s.reg x) (s.reg y) n.toNat (fun k => s.readByte (ea s.i k)) c r

/-- From `s` to `t`, the bits `bit` are drawn on the display and `VF` tells whether one of them fell on a set pixel. -/
structure Draws (bit : Fin 64 → Fin 32 → Bool) (s t : State) : Prop where
  pc     : t.pc = s.pc + 2
  pixels : ∀ c r, pixel t.disp c r = (pixel s.disp c r ^^ bit c r)
  flag   : ∃ hit : Bool, t.reg VF = flagByte hit ∧ (hit = true ↔ ∃ c r, pixel s.disp c r = true ∧ bit c r = true)
  frame  : Frame { regs := [VF], display := true } s t

namespace Draws

variable {bit : Fin 64 → Fin 32 → Bool} {s t u : State}

theorem flag_eq_one_iff (h : Draws bit s t) :
    (t.reg VF).toNat = 1 ↔ ∃ c r, pixel s.disp c r = true ∧ bit c r = true := by
  obtain ⟨hit, hflag, hhit⟩ := h.flag
  rw [hflag, toNat_flagByte, Bool.toNat_eq_one, hhit]

theorem flag_eq_zero_iff (h : Draws bit s t) :
    (t.reg VF).toNat = 0 ↔ ¬∃ c r, pixel s.disp c r = true ∧ bit c r = true := by
  obtain ⟨hit, hflag, hhit⟩ := h.flag
  rw [hflag, toNat_flagByte, Bool.toNat_eq_zero, ← hhit, Bool.not_eq_true]

/-- A bit falls on a set pixel where it clears it. -/
theorem cleared_iff (h : Draws bit s t) (c : Fin 64) (r : Fin 32) :
    pixel s.disp c r = true ∧ pixel t.disp c r = false ↔ pixel s.disp c r = true ∧ bit c r = true := by
  rw [h.pixels]
  refine and_congr_right fun hset => ?_
  rw [hset, Bool.true_xor, Bool.not_eq_false']

/-- The draw sets a pixel where the sprite has a bit and the pixel is set afterwards. -/
theorem set_iff (h : Draws bit s t) (c : Fin 64) (r : Fin 32) :
    pixel s.disp c r = false ∧ pixel t.disp c r = true ↔ pixel t.disp c r = true ∧ bit c r = true := by
  rw [h.pixels]
  cases pixel s.disp c r with
  | false => simp
  | true => simp

/-- The same bits drawn again cancel (R194). -/
theorem disp_of_twice (h : Draws bit s t) (h' : Draws bit t u) : u.disp = s.disp :=
  display_ext fun c r => by rw [h'.pixels, h.pixels, Bool.xor_assoc, Bool.xor_self, Bool.xor_false]

/-- DRW leaves `I`, memory and the registers but `VF`, so that it draws the same bits again. -/
theorem drawnBit_eq (h : Draws bit s t) {x y : Reg} (n : Nibble) (hx : x ≠ VF) (hy : y ≠ VF) :
    t.drawnBit x y n = s.drawnBit x y n := by
  have hreg : ∀ {q : Reg}, q ≠ VF → t.reg q = s.reg q := fun hq => h.frame.regs _ (by simpa using hq)
  have hbyte : ∀ a, t.readByte a = s.readByte a := fun a => h.frame.bytes a List.not_mem_nil
  funext c r
  simp only [State.drawnBit, hreg hx, hreg hy, h.frame.index rfl, hbyte]

end Draws

/-- The bytes at the index drawn, with the collision as the flag. -/
theorem draws_bytesAtIndex (s : State) (x y : Reg) (n : Nibble) :
    let drawn := drawSprite s.disp (s.reg x) (s.reg y) (s.bytesAtIndex n.toNat)
    Draws (s.drawnBit x y n) s ((s.advance.setDisplay drawn.1).setFlag drawn.2) := by
  have hlen := length_bytesAtIndex s n.toNat
  have hmax : (s.bytesAtIndex n.toNat).length ≤ 32 := by omega
  have hbit : spriteBit (s.reg x) (s.reg y) (s.bytesAtIndex n.toNat).length
      (fun k => (s.bytesAtIndex n.toNat).getD k 0) = s.drawnBit x y n := by
    funext c r
    rw [hlen]
    exact spriteBit_congr (fun k hk => getD_bytesAtIndex s hk) c r
  refine ⟨rfl, fun c r => ?_, ⟨_, reg_setFlag_self _ _, ?_⟩, frame_setDisplay_setFlag _ _ s⟩
  · rw [setFlag_disp, setDisplay_disp, pixel_drawSprite hmax, hbit]
  · rw [collision_drawSprite hmax, hbit]

section Draw

variable {s : State} {n : Nibble} (x y : Reg)

/-- The end of the bytes drawn is one past the last of them. -/
theorem ea_toNat_eq_succ (i : Word) (hn : n ≠ 0) : ea i n.toNat = ea i (n.toNat - 1) + 1 := by
  have hpos : n.toNat ≠ 0 := fun h => hn (BitVec.eq_of_toNat_eq h)
  unfold ea
  omega

theorem exec_drw_draws (hn : n ≠ 0) (h : ea s.i (n.toNat - 1) ≤ 0xFFF) :
    ∃ t, exec (.drw x y n) s = .next t ∧ Draws (s.drawnBit x y n) s t := by
  have hread : readBytes (ea s.i 0) n.toNat s = .ok (s.bytesAtIndex n.toNat) :=
    readBytes_at_index (ea_toNat_eq_succ s.i hn ▸ Nat.succ_le_succ h)
  refine ⟨_, ?_, draws_bytesAtIndex s x y n⟩
  rw [exec, execDrw, if_neg hn, drawFromMemory, hread, ok_bind, complete_ok]

theorem exec_drw_outOfBounds (hn : n ≠ 0) (h : 0xFFF < ea s.i (n.toNat - 1)) :
    exec (.drw x y n) s = .next (haltedWith (.outOfBounds 0x1000) s) := by
  have hread : readBytes (ea s.i 0) n.toNat s = .error (.outOfBounds 0x1000) :=
    readBytes_at_index_outOfBounds (ea_toNat_eq_succ s.i hn ▸ Nat.succ_lt_succ h)
  rw [exec, execDrw, if_neg hn, drawFromMemory, hread]; rfl

end Draw

/-! ### DRW of no rows (R193) -/

theorem exec_drw_zero_nop {s : State} (x y : Reg) (h : s.cfg.zeroHeight = .nop) :
    exec (.drw x y 0) s = .next (s.advance.setFlag false) := by
  rw [exec, execDrw, if_pos rfl, drawNothing, h]; rfl

theorem exec_drw_zero_illegal {s : State} (x y : Reg) (h : s.cfg.zeroHeight = .illegal) :
    exec (.drw x y 0) s = .next (haltedWith (.illegalOpcode (encode (.drw x y 0))) s) := by
  rw [exec, execDrw, if_pos rfl, drawNothing, h]; rfl

end Sys2Proof.Machine

/-! ### The statements settled -/

namespace Sys2Proof.Proofs

open Sys2Proof.Machine Sys2Proof.Safety

/-- Settles O50: a sprite of at most 32 rows falls on distinct pixels (`paint`), each with its own bit. -/
theorem spriteIsXoredWithWrapAround : Obligations.SpriteIsXoredWithWrapAround := by
  intro d cx cy bytes hlen
  have hmax : bytes.length ≤ 32 := hlen.trans (by decide)
  exact ⟨pixel_drawSprite hmax d cx cy, collision_drawSprite hmax d cx cy⟩

/-- Settles O51: the bytes at the index are drawn (`exec_drw_draws`), and a bit collides where it clears a pixel. -/
theorem drawXorsTheBytesAtIndex : Obligations.DrawXorsTheBytesAtIndex := by
  intro x y n s hn
  refine ⟨decode_of_encode_eq (wordRR_eq_encodeRRN 0xD x y n) rfl, fun h => ?_, exec_drw_outOfBounds x y hn⟩
  obtain ⟨t, hexec, hdraws⟩ := exec_drw_draws x y hn h
  refine ⟨t, hexec, hdraws.pc, hdraws.pixels, ?_, ?_, hdraws.frame⟩
  · simp only [hdraws.flag_eq_one_iff, hdraws.cleared_iff]
  · simp only [hdraws.flag_eq_zero_iff, hdraws.cleared_iff]

/-- Settles O53: the second draw has the bits of the first (`Draws.drawnBit_eq`), and they fall on set pixels where the
first draw set them. -/
theorem drawingTwiceRestoresTheDisplay : Obligations.DrawingTwiceRestoresTheDisplay := by
  intro x y n s hn hx hy h
  obtain ⟨t, hexec, hfirst⟩ := exec_drw_draws x y hn h
  rw [← hfirst.frame.index rfl] at h
  obtain ⟨u, hexec', hsecond⟩ := exec_drw_draws x y hn h
  rw [hfirst.drawnBit_eq n hx hy] at hsecond
  refine ⟨t, u, hexec, hexec', hfirst.disp_of_twice hsecond, ?_, fun ⟨c, r, hbit⟩ hset => ⟨?_, ?_⟩⟩
  · simp only [hsecond.flag_eq_one_iff, hfirst.set_iff]
  · exact hfirst.flag_eq_one_iff.mpr ⟨c, r, hset c r hbit, hbit⟩
  · rw [hsecond.flag_eq_zero_iff]
    rintro ⟨c', r', hset', hbit'⟩
    obtain ⟨hclear, -⟩ := (hfirst.set_iff c' r').mpr ⟨hset', hbit'⟩
    exact Bool.eq_false_iff.mp hclear (hset c' r' hbit')

/-- Settles O49: every pixel of the cleared display is false (`pixel_clearDisplay`). -/
theorem clearSetsEveryPixelFalse : Obligations.ClearSetsEveryPixelFalse := fun s =>
  ⟨decode_of_encode_eq rfl rfl, _, complete_ok s _, rfl, pixel_clearDisplay, frame_setDisplay clearDisplay s⟩

/-- Settles O52: by the policy, a fatal error with the encoded word, or the flag alone. -/
theorem zeroHeightDrawIsIllegalOrClearsTheFlag : Obligations.ZeroHeightDrawIsIllegalOrClearsTheFlag := by
  intro x y s
  have hword : wordRR 0xD x.val y.val 0 = encode (.drw x y 0) := wordRR_eq_encodeRRN 0xD x y 0
  refine ⟨decode_of_encode_eq hword rfl, fun h => ?_, fun h => ?_⟩
  · rw [hword, exec_drw_zero_illegal x y h]
  · exact ⟨_, exec_drw_zero_nop x y h, rfl, reg_setFlag_self _ false, frame_setFlag false s⟩

end Sys2Proof.Proofs

/-! SUPPORT and PROOFS for the statements about timers and keys (44_timers_input.md): the key that an operand selects,
what the timer and key instructions leave, and how the key wait starts and ends. -/

namespace Sys2Proof.Machine

open Sys2Proof.Safety

/-! ### The key that an operand selects (R210) -/

section KeyIndex

variable {s : State}

/-- A key number in range is its own low nibble, so both policies select the low nibble of what they accept. -/
theorem keyIndex_ok {b : Byte} {k : Reg} (op : Word) (hk : k.val = b.toNat % 16)
    (h : b.toNat ≤ 0xF ∨ s.cfg.keyIndex = .mask) : keyIndex op b s = .ok k := by
  unfold keyIndex
  by_cases hrange : b.toNat ≤ 0xF
  · rw [dif_pos hrange]
    exact congrArg Except.ok (Fin.ext (hk.trans (Nat.mod_eq_of_lt (Nat.lt_succ_of_le hrange))).symm)
  · rw [dif_neg hrange, h.resolve_left hrange]
    exact congrArg Except.ok (Fin.ext ((BitVec.extractLsb'_toNat 0 4 b).trans hk.symm))

theorem keyIndex_badOperand {b : Byte} (op : Word) (hb : 0xF < b.toNat) (hp : s.cfg.keyIndex = .fault) :
    keyIndex op b s = .error (.badOperand op) := by
  rw [keyIndex, dif_neg (Nat.not_le.mpr hb), hp]

/-! ### The key skips (R211, R212) -/

variable {x : Reg}

theorem exec_skp_eq {k : Reg} (h : keyIndex (encode (.skp x)) (s.reg x) s = .ok k) :
    exec (.skp x) s = complete s (.ok (skipIf s.key[k.val] s.advance)) := by
  rw [exec, execSkp, h, ok_bind]

theorem exec_sknp_eq {k : Reg} (h : keyIndex (encode (.sknp x)) (s.reg x) s = .ok k) :
    exec (.sknp x) s = complete s (.ok (skipIf (!s.key[k.val]) s.advance)) := by
  rw [exec, execSknp, h, ok_bind]

theorem exec_skp_error {e : Fault} (h : keyIndex (encode (.skp x)) (s.reg x) s = .error e) :
    exec (.skp x) s = .next (haltedWith e s) := by
  rw [exec, execSkp, h]; rfl

theorem exec_sknp_error {e : Fault} (h : keyIndex (encode (.sknp x)) (s.reg x) s = .error e) :
    exec (.sknp x) s = .next (haltedWith e s) := by
  rw [exec, execSknp, h]; rfl

end KeyIndex

/-! ### Frames of the timers and of the key wait -/

theorem frame_setDelay (b : Byte) (s : State) : Frame { delay := true } s (s.advance.setDelay b) := by
  constructor <;> simp

theorem frame_setSound (b : Byte) (s : State) : Frame { sound := true } s (s.advance.setSound b) := by
  constructor <;> simp

theorem frame_startKeyWait (x : Reg) (s : State) :
    Frame { wait := true } s ((s.advance.setWaitReg x).setRun .awaitingKey) := by
  constructor <;> simp

theorem frame_endKeyWait (x : Reg) (b : Byte) (s : State) :
    Frame { regs := [x], wait := true } s ((s.setReg x b).setRun .running) := by
  constructor <;> simp
  exact fun r hr => reg_setReg_other s b hr

/-! ### The least pressed key (R217) -/

/-- The search through the key numbers in turn is the one whose laws Batteries states. -/
theorem leastKey_eq_find? (s : State) : leastKey s = Fin.find? fun k => s.key[k.val] :=
  Fin.find?_eq_find?_finRange.symm

theorem leastKey_eq_none {s : State} (h : ∀ k : Fin 16, s.key[k.val] = false) : leastKey s = none := by
  rw [leastKey_eq_find?, Fin.find?_eq_none_iff]
  exact h

theorem leastKey_eq_some {s : State} {k : Fin 16} (hk : s.key[k.val] = true)
    (hleast : ∀ j : Fin 16, j.val < k.val → s.key[j.val] = false) : leastKey s = some k := by
  rw [leastKey_eq_find?, Fin.find?_eq_some_iff]
  exact ⟨hk, hleast⟩

theorem keyWaitStep_none {s : State} (h : leastKey s = none) : keyWaitStep s = s := by
  rw [keyWaitStep, h]

theorem keyWaitStep_some {s : State} {k : Reg} (h : leastKey s = some k) :
    keyWaitStep s = (s.setReg s.waitReg (BitVec.ofNat 8 k.val)).setRun .running := by
  rw [keyWaitStep, h]

/-! ### What a step that does not halt replies (60_exceptions.md R230) -/

section Reply

variable {s t : State}

theorem afterStep_eq (h : step s = .next t) : afterStep s = t := by
  rw [afterStep, h]

theorem stepReply_of_running (hl : s.loaded = true) (h : step s = .next t) (ht : t.run = .running) :
    stepReply s = .advanced := by
  rw [stepReply, if_pos hl, afterStep_eq h, ht]

theorem stepReply_of_awaitingKey (hl : s.loaded = true) (h : step s = .next t) (ht : t.run = .awaitingKey) :
    stepReply s = .awaitingKey := by
  rw [stepReply, if_pos hl, afterStep_eq h, ht]

end Reply

end Sys2Proof.Machine

/-! ### The statements settled -/

namespace Sys2Proof.Proofs

open Sys2Proof.Machine Sys2Proof.Safety

/-- Settles O13: by the search for the least key (`leastKey_eq_none`, `leastKey_eq_some`), which decides between no change
and the end of the wait. -/
theorem keyWaitStepTakesTheLeastKey : Obligations.KeyWaitStepTakesTheLeastKey := by
  intro s hl hr
  refine ⟨fun hnone => ?_, fun k hk hleast => ?_⟩
  · have hstep : step s = .next s := by
      rw [step_awaitingKey hl hr, keyWaitStep_none (leastKey_eq_none hnone)]
    exact ⟨hstep, stepReply_of_awaitingKey hl hstep hr⟩
  · have hstep : step s = .next ((s.setReg s.waitReg (BitVec.ofNat 8 k.val)).setRun .running) := by
      rw [step_awaitingKey hl hr, keyWaitStep_some (leastKey_eq_some hk hleast)]
    refine ⟨_, hstep, stepReply_of_running hl hstep rfl, ?_, rfl, rfl, rfl, frame_endKeyWait s.waitReg _ s⟩
    rw [reg_setRun, reg_setReg_same, BitVec.toNat_ofNat]
    omega

/-- Settles O54: the operand selects a key (`keyIndex_ok`), and each instruction is a skip on its bit of the latch; or it
selects none (`keyIndex_badOperand`), and the error carries the encoded word. -/
theorem keySkipsTestTheLatch : Obligations.KeySkipsTestTheLatch := by
  intro x s k hk
  have hskp : wordRB 0xE x.val 0x9E = encode (.skp x) := wordRB_eq_encodeRB 0xE x 0x9E
  have hsknp : wordRB 0xE x.val 0xA1 = encode (.sknp x) := wordRB_eq_encodeRB 0xE x 0xA1
  rw [hskp, hsknp]
  refine ⟨decode_encode rfl, decode_encode rfl, fun haccepted => ⟨?_, ?_⟩, fun hb hp => ⟨?_, ?_⟩⟩
  · rw [exec_skp_eq (keyIndex_ok _ hk haccepted)]
    exact skip_if Iff.rfl
  · rw [exec_sknp_eq (keyIndex_ok _ hk haccepted)]
    exact skip_unless (by rw [Bool.not_eq_true', Bool.not_eq_true])
  · exact exec_skp_error (keyIndex_badOperand _ hb hp)
  · exact exec_sknp_error (keyIndex_badOperand _ hb hp)

/-- Settles O55: LD Vx, DT writes one register (`writes_register`), the other two one timer each. -/
theorem timersAreReadAndSet : Obligations.TimersAreReadAndSet := by
  intro x s
  refine ⟨decode_of_encode_eq (wordRB_eq_encodeRB 0xF x 0x07) rfl, decode_of_encode_eq (wordRB_eq_encodeRB 0xF x 0x15) rfl,
    decode_of_encode_eq (wordRB_eq_encodeRB 0xF x 0x18) rfl, writes_register s x s.dt, ?_, ?_⟩
  · exact ⟨_, complete_ok s _, rfl, rfl, frame_setDelay (s.reg x) s⟩
  · exact ⟨_, complete_ok s _, rfl, rfl, frame_setSound (s.reg x) s, decide_eq_true_iff⟩

/-- Settles O56: the instruction writes `wait_reg` and the run state whatever the latch holds, and the reply of the step
is told by that run state. -/
theorem keyWaitStartsWithoutCompleting : Obligations.KeyWaitStartsWithoutCompleting := by
  intro x s
  have hexec : exec (.ldVxK x) s = .next ((s.advance.setWaitReg x).setRun .awaitingKey) := complete_ok s _
  refine ⟨decode_of_encode_eq (wordRB_eq_encodeRB 0xF x 0x0A) rfl, ⟨_, hexec, rfl, rfl, rfl, frame_startKeyWait x s⟩,
    fun op hl hr hfetch hdecode => ?_⟩
  have hstep : step s = .next ((s.advance.setWaitReg x).setRun .awaitingKey) := by
    rw [step_running hl hr, runningStep_exec hfetch hdecode, hexec]
  exact stepReply_of_awaitingKey hl hstep rfl

end Sys2Proof.Proofs

/-! SUPPORT and PROOFS for the statements about the step and the host interface (60_exceptions.md): every step answers,
what a fatal step leaves, what the host operations do, and that each of them keeps the invariant. -/

namespace Sys2Proof.Machine

open Sys2Proof.Safety

/-! ### Every step answers (R230) -/

section Step

variable {s t : State}

theorem runningStep_answers (s : State) : ∃ t, runningStep s = .next t := by
  cases hfetch : fetch s with
  | error e => exact ⟨_, runningStep_fetch_error hfetch⟩
  | ok op =>
    cases hdecode : decode s.cfg op with
    | none => exact ⟨_, runningStep_illegal hfetch hdecode⟩
    | some i => rw [runningStep_exec hfetch hdecode]; exact exec_answers i s

theorem step_answers (s : State) : ∃ t, step s = .next t := by
  cases hl : s.loaded with
  | false => exact ⟨s, step_unloaded hl⟩
  | true =>
    cases hr : s.run with
    | halted => exact ⟨s, step_halted hr⟩
    | awaitingKey => exact ⟨_, step_awaitingKey hl hr⟩
    | running => rw [step_running hl hr]; exact runningStep_answers s

theorem step_eq_afterStep (s : State) : step s = .next (afterStep s) := by
  obtain ⟨t, h⟩ := step_answers s
  rw [afterStep_eq h, h]

theorem stepReply_unloaded (hl : s.loaded = false) : stepReply s = .notLoaded := by
  rw [stepReply, hl, if_neg Bool.false_ne_true]

/-! ### What a fatal step leaves (R234) -/

/-- An instruction halts a RUNNING machine only by its fatal error: one that completes keeps the run state or starts the
key wait. -/
theorem exec_halts {i : Instr} (hr : s.run = .running) (h : exec i s = .next t) (ht : t.run = .halted) :
    ∃ e, t = raiseFault e s := by
  refine (exec_flow h).resolve_right fun hflow => ?_
  rcases hflow.run with hrun | hrun
  · cases (ht.symm.trans hrun).trans hr
  · cases ht.symm.trans hrun

theorem step_halts (hr : s.run = .running) (h : step s = .next t) (ht : t.run = .halted) :
    ∃ e, t = haltedWith e s := by
  rcases step_cases h with ⟨_, rfl⟩ | ⟨_, hwait, _⟩ | ⟨_, _, herror | ⟨_, _, _, _, hexec⟩⟩
  · cases hr.symm.trans ht
  · cases hr.symm.trans hwait
  · exact herror
  · exact exec_halts hr hexec ht

end Step

/-! ### Loading a program (70_reset_and_hazards.md R273, R274) -/

section Load

variable {bytes : List Byte}

theorem imageFits_iff : imageFits bytes = true ↔ bytes.length + 0x200 ≤ 4096 := decide_eq_true_iff

theorem loadROM_of_fits (s : State) (h : bytes.length + 0x200 ≤ 4096) :
    loadROM bytes s = { (resetMachine s).loadBytes 0x200 bytes with loaded := true } :=
  if_pos (imageFits_iff.mpr h)

theorem loadROM_of_too_large (s : State) (h : 4096 < bytes.length + 0x200) : loadROM bytes s = resetMachine s :=
  if_neg (mt imageFits_iff.mp (Nat.not_le.mpr h))

end Load

/-- A load leaves the machine RUNNING, with the image or without. -/
theorem loadROM_run (bytes : List Byte) (s : State) : (loadROM bytes s).run = .running := by
  rcases Nat.lt_or_ge 4096 (bytes.length + 0x200) with hlarge | hfits
  · rw [loadROM_of_too_large s hlarge, resetMachine_run]
  · rw [loadROM_of_fits s hfits]
    exact loadBytes_run _ _ _

/-! ### The timers (R250, R252) -/

theorem toNat_tickedTimer (b : Byte) : (tickedTimer b).toNat = b.toNat - 1 := by
  rw [tickedTimer]
  split
  · bv_omega
  · omega

theorem toNat_iterate_tickedTimer (n : Nat) (b : Byte) : (tickedTimer^[n] b).toNat = b.toNat - n := by
  induction n generalizing b with
  | zero => rfl
  | succ n ih => rw [Function.iterate_succ_apply, ih, toNat_tickedTimer]; omega

/-- A run of ticks writes the two timers alone. -/
theorem hostRun_tickTimers (n : Nat) (s : State) :
    hostRun (List.replicate n .tickTimers) s =
      { s with dt := tickedTimer^[n] s.dt, st := tickedTimer^[n] s.st } := by
  induction n generalizing s with
  | zero => rfl
  | succ n ih => exact ih (tickTimers s)

/-! ### The key latch (R253) -/

theorem setKey_of_invalid {index : Nat} (pressed : Bool) (s : State) (h : 0xF < index) : setKey index pressed s = s :=
  dif_neg (Nat.not_le.mpr h)

theorem setKey_val (k : Fin 16) (pressed : Bool) (s : State) :
    setKey k.val pressed s = { s with key := s.key.set k.val pressed } :=
  dif_pos (Nat.le_of_lt_succ k.isLt)

theorem setKey_run (index : Nat) (pressed : Bool) (s : State) : (setKey index pressed s).run = s.run := by
  rw [setKey]; split <;> rfl

end Sys2Proof.Machine

namespace Sys2Proof.Safety

open Sys2Proof.Machine

/-! ### The invariant, kept by each host operation (R255) -/

/-- The invariant does not speak of the timers and the latch, which are all that a tick and `setKey` write. -/
theorem inv_timers_key {s : State} (hs : Inv s) (delay sound : Byte) (key : Vector Bool 16) :
    Inv { s with dt := delay, st := sound, key := key } where
  memory := hs.memory
  record := hs.record
  unloaded := hs.unloaded
  pcBound := hs.pcBound
  pcEven := hs.pcEven
  stackBound := hs.stackBound
  stackEven := hs.stackEven
  lowRegion := hs.lowRegion

theorem inv_tickTimers {s : State} (hs : Inv s) : Inv (tickTimers s) := inv_timers_key hs _ _ _

theorem inv_setKey {s : State} (hs : Inv s) (index : Nat) (pressed : Bool) : Inv (setKey index pressed s) := by
  rw [setKey]
  split
  · exact inv_timers_key hs _ _ _
  · exact hs

/-- The reset state meets the invariant, whatever state it is reached from: no cell is listed and the stack is empty. -/
theorem inv_resetMachine (s : State) : Inv (resetMachine s) where
  memory := rfl
  record := by simp
  unloaded _ := rfl
  pcBound := by simp
  pcEven _ := by simp
  stackBound k hk := absurd hk (Nat.not_lt_zero k.val)
  stackEven _ k hk := absurd hk (Nat.not_lt_zero k.val)
  lowRegion _ _ _ := rfl

/-- An image that fits lies at and above 0x200, inside the address space. -/
theorem inv_loadImage (s : State) {bytes : List Byte} (h : bytes.length + 0x200 ≤ 4096) :
    Inv { (resetMachine s).loadBytes 0x200 bytes with loaded := true } where
  memory := by
    simpa using wf_loadBytes (resetMachine s) 0x200 bytes (inv_resetMachine s).memory (by omega)
  record := by simp
  unloaded h := absurd h.symm Bool.false_ne_true
  pcBound := by simp
  pcEven _ := by simp
  stackBound k hk := by simp at hk
  stackEven _ k hk := by simp at hk
  lowRegion _ a ha :=
    calc ((resetMachine s).loadBytes 0x200 bytes).readByte a = (resetMachine s).readByte a := by
          rw [readByte_loadBytes, if_neg (by omega)]
      _ = resetByte ((resetMachine s).loadBytes 0x200 bytes).cfg a := by rw [loadBytes_cfg]; rfl

theorem inv_loadROM (bytes : List Byte) (s : State) : Inv (loadROM bytes s) := by
  rcases Nat.lt_or_ge 4096 (bytes.length + 0x200) with hlarge | hfits
  · rw [loadROM_of_too_large s hlarge]; exact inv_resetMachine s
  · rw [loadROM_of_fits s hfits]; exact inv_loadImage s hfits

theorem inv_hostNext {s : State} (op : HostOp) (hs : Inv s) : Inv (hostNext op s) := by
  cases op with
  | loadROM bytes => exact inv_loadROM bytes s
  | reset => exact inv_resetMachine s
  | step => exact inv_step hs (step_eq_afterStep s)
  | tickTimers => exact inv_tickTimers hs
  | setKey index pressed => exact inv_setKey hs index pressed
  | getDisplay | isSoundActive | observe => exact hs

theorem inv_hostRun {s : State} (ops : List HostOp) (hs : Inv s) : Inv (hostRun ops s) := by
  induction ops generalizing s with
  | nil => exact hs
  | cons op ops ih => exact ih (inv_hostNext op hs)

end Sys2Proof.Safety

/-! ### The statements settled -/

namespace Sys2Proof.Proofs

open Sys2Proof.Machine Sys2Proof.Safety

/-- Settles O21: by induction on the run, each operation of which keeps the invariant (`inv_hostNext`). -/
theorem hostRunsKeepTheInvariant : Obligations.HostRunsKeepTheInvariant :=
  fun _ ops hs => inv_hostRun ops hs

/-- Settles O12: a RUNNING step halts only by a fatal error (`step_halts`), and the reply carries its record. -/
theorem fatalStepUndoesEveryWrite : Obligations.FatalStepUndoesEveryWrite := by
  intro s t hl hr hstep ht
  obtain ⟨e, rfl⟩ := step_halts hr hstep ht
  exact ⟨e, rfl, stepReply_of_halting_step hl hstep ht⟩

/-- Settles O14: by the run states, and for a RUNNING step by what fetch and decode answer. -/
theorem everyStepAnswersANextState : Obligations.EveryStepAnswersANextState := step_answers

/-- Settles O27: a run of ticks writes the two timers alone (`hostRun_tickTimers`), each by `tickedTimer` iterated. -/
theorem ticksCountDownToZero : Obligations.TicksCountDownToZero := by
  intro n s
  rw [hostRun_tickTimers]
  exact ⟨toNat_iterate_tickedTimer n s.dt, toNat_iterate_tickedTimer n s.st, rfl⟩

/-- Settles O10: the step is the first case of `step`, and an image of at most 3584 bytes fits. -/
theorem stepBeforeLoadChangesNothing : Obligations.StepBeforeLoadChangesNothing := by
  intro s hl
  refine ⟨step_unloaded hl, stepReply_unloaded hl, fun bytes hlen => ⟨?_, loadROM_run bytes s⟩⟩
  rw [loadROM_of_fits s (by omega)]

/-- Settles O11: a HALTED step changes nothing, so its reply carries the old record; a load ends RUNNING (`loadROM_run`),
and a tick and `setKey` keep the run state. -/
theorem haltedStepRepeatsTheRecord : Obligations.HaltedStepRepeatsTheRecord := by
  intro s hl hr
  have hstep : step s = .next s := step_halted hr
  exact ⟨hstep, stepReply_of_halting_step hl hstep hr, rfl, fun bytes => loadROM_run bytes s, hr,
    fun index pressed => (setKey_run index pressed s).trans hr⟩

/-- Settles O26: each timer is `tickedTimer` of the old one, and a tick writes nothing else. -/
theorem tickTakesOneOffEachTimer : Obligations.TickTakesOneOffEachTimer := by
  intro s
  have hdelay : (tickTimers s).dt.toNat = s.dt.toNat - 1 := toNat_tickedTimer s.dt
  have hsound : (tickTimers s).st.toNat = s.st.toNat - 1 := toNat_tickedTimer s.st
  exact ⟨by omega, fun h => by bv_omega, by omega, fun h => by bv_omega, rfl⟩

/-- Settles O28: an index out of range is rejected (`setKey_of_invalid`), one in range sets its entry of the latch
(`setKey_val`). -/
theorem setKeyWritesOneLatchBit : Obligations.SetKeyWritesOneLatchBit := by
  intro index pressed s
  refine ⟨fun h => ⟨setKey_of_invalid pressed s h, if_neg (Nat.not_le.mpr h)⟩, ?_⟩
  rintro k rfl
  rw [setKey_val]
  refine ⟨if_pos (Nat.le_of_lt_succ k.isLt), Vector.getElem_set_self _, fun j hj => ?_, rfl⟩
  exact Vector.getElem_set_ne k.isLt j.isLt (Fin.val_ne_of_ne hj.symm)

/-- Settles O29: the sound output compares the timer with 0; the others answer a part of the state, and no case of
`hostNext` for the three writes. -/
theorem outputsTellTheStateAndChangeNothing : Obligations.OutputsTellTheStateAndChangeNothing :=
  fun _ => ⟨decide_eq_true_iff, rfl, rfl, rfl, rfl, rfl, rfl⟩

end Sys2Proof.Proofs

/-! SUPPORT and PROOFS for the statements about reset and loading (70_reset_and_hazards.md): what memory holds after
reset, what reset reads, and that a load writes memory alone. -/

namespace Sys2Proof.Machine

/-! ### Memory after reset (20_memory.md R54, R55) -/

theorem resetByte_font (cfg : Config) {j : Nat} (hj : j < 80) :
    resetByte cfg (cfg.fontBase.val + j) = fontBytes.getD j 0 := by
  rw [resetByte, if_pos (by omega), Nat.add_sub_cancel_left]

theorem resetByte_outside_font {cfg : Config} {a : Nat} (h : a < cfg.fontBase.val ∨ cfg.fontBase.val + 80 ≤ a) :
    resetByte cfg a = 0 :=
  if_neg (by omega)

/-- After reset no cell is listed, so every address reads as its reset contents. -/
theorem readByte_resetMachine (s : State) (a : Nat) : (resetMachine s).readByte a = resetByte s.cfg a := rfl

/-! ### What reset reads (R270, R271) -/

theorem resetMachine_resetWith (cfg : Config) : resetMachine (State.resetWith cfg) = State.resetWith cfg := rfl

theorem resetMachine_congr {s t : State} (hcfg : t.cfg = s.cfg) (hdraws : t.draws = s.draws) :
    resetMachine t = resetMachine s := by
  rw [resetMachine, resetMachine, hcfg, hdraws]

/-! ### What a load writes (R274) -/

theorem loadBytes_writes_mem_alone (s : State) (a : Nat) (bs : List Byte) :
    s.loadBytes a bs = { s with mem := (s.loadBytes a bs).mem } := by
  induction bs generalizing s a with
  | nil => rfl
  | cons b bs ih => exact ih (s.writeByte a b) (a + 1)

section Image

variable {bytes : List Byte}

/-- The bytes of a machine that has loaded an image: `loaded` is no part of memory. -/
theorem readByte_loadROM (s : State) (h : bytes.length + 0x200 ≤ 4096) (a : Nat) :
    (loadROM bytes s).readByte a =
      if 0x200 ≤ a ∧ a < 0x200 + bytes.length then bytes.getD (a - 0x200) 0 else (resetMachine s).readByte a := by
  rw [loadROM_of_fits s h]
  exact readByte_loadBytes (resetMachine s) 0x200 a bytes

theorem loadROM_writes_mem_and_loaded (s : State) (h : bytes.length + 0x200 ≤ 4096) :
    { loadROM bytes s with mem := [], loaded := false } = resetMachine s := by
  rw [loadROM_of_fits s h, loadBytes_writes_mem_alone]
  rfl

theorem hostReply_loadROM_of_fits (s : State) (h : bytes.length + 0x200 ≤ 4096) :
    hostReply (.loadROM bytes) s = .ok := by
  rw [hostReply, if_pos (imageFits_iff.mpr h)]

theorem hostReply_loadROM_of_too_large (s : State) (h : 4096 < bytes.length + 0x200) :
    hostReply (.loadROM bytes) s = .loadError := by
  rw [hostReply, if_neg (mt imageFits_iff.mp (Nat.not_le.mpr h))]

end Image

end Sys2Proof.Machine

/-! ### The statements settled -/

namespace Sys2Proof.Proofs

open Sys2Proof.Machine Sys2Proof.Safety

/-- Settles O25: an image that is too large leaves the reset state (`loadROM_of_too_large`); one that fits gives its bytes
from 0x200 on (`readByte_loadROM`) and writes nothing but memory and `loaded`. -/
theorem loadPutsTheImageOrRejectsIt : Obligations.LoadPutsTheImageOrRejectsIt := by
  intro bytes s
  constructor
  · intro hlarge
    have hreset : loadROM bytes s = resetMachine s := loadROM_of_too_large s hlarge
    exact ⟨hreset, hreset ▸ resetMachine_loaded s, hostReply_loadROM_of_too_large s hlarge⟩
  · intro hfits
    refine ⟨hostReply_loadROM_of_fits s hfits, by rw [loadROM_of_fits s hfits], fun j hj => ?_, fun a ha => ?_,
      loadROM_writes_mem_and_loaded s hfits⟩
    · rw [readByte_loadROM s hfits, if_pos (by omega), Nat.add_sub_cancel_left]
    · rw [readByte_loadROM s hfits, if_neg (by omega)]

/-- Settles O19: the state is its own reset (`resetMachine_resetWith`), and every reset state meets the invariant. -/
theorem resetMeetsTheInvariant : Obligations.ResetMeetsTheInvariant := by
  have hinv (cfg : Config) : Inv (State.resetWith cfg) := resetMachine_resetWith cfg ▸ inv_resetMachine _
  exact ⟨hinv Config.default, hinv⟩

/-- Settles O23: the arrays are filled with one value, and memory is the font at its base and 0 elsewhere
(`resetByte_font`, `resetByte_outside_font`). -/
theorem resetSetsEveryPieceOfState : Obligations.ResetSetsEveryPieceOfState := by
  intro s
  have hreg (r : Reg) : (resetMachine s).reg r = 0 := Vector.getElem_replicate r.isLt
  have hstack (k : Fin 16) : (resetMachine s).stack[k.val] = 0 := Vector.getElem_replicate k.isLt
  have hkey (k : Fin 16) : (resetMachine s).key[k.val] = false := Vector.getElem_replicate k.isLt
  exact ⟨hreg, rfl, rfl, hstack, rfl, rfl, rfl, pixel_clearDisplay, hkey, fun _ => resetByte_font s.cfg,
    fun _ => resetByte_outside_font, rfl, rfl, rfl, rfl⟩

/-- Settles O24: reset keeps the configuration and the counter of draws, and reads nothing else (`resetMachine_congr`). -/
theorem resetIsIdempotent : Obligations.ResetIsIdempotent := fun s =>
  ⟨resetMachine_congr (resetMachine_cfg s) (resetMachine_draws s), fun _ => resetMachine_congr⟩

end Sys2Proof.Proofs
